-- ==== Sys2Proof/Word.lean ====
section
/-! DEFINITION. The word types of the CORE (spec/00_scope.md R7, R9): unsigned values of a fixed width, no
signed quantity anywhere. -/

namespace Sys2Proof

/-- An 8-bit value: a general register, a timer, a byte of memory (R7 `V_WIDTH`, R37). -/
abbrev Byte := BitVec 8

/-- A 16-bit value: `I`, `PC`, a stack entry, an instruction word (R7 `I_WIDTH`, `PC_WIDTH`, `INSTR_BITS`). -/
abbrev Word := BitVec 16

/-- The number of a general register, 0 to 15 (R30); also a key number and a glyph number (R39, R63). -/
abbrev Reg := Fin 16

/-- VF, the flag register (R31). -/
abbrev Reg.vf : Reg := 15

/-- The registers in ascending order, V0 to VF. -/
def Reg.all : List Reg := [0, 1, 2, 3, 4, 5, 6, 7, 8, 9, 10, 11, 12, 13, 14, 15]

/-- An elapsed time in seconds, the argument `e` of `TimerUpdate`: the non-negative rational
`num / (denMinusOne + 1)` (R24). Every non-negative rational has this form and nothing else does. -/
structure Elapsed where
  num : Nat
  denMinusOne : Nat
  deriving DecidableEq, Repr, Inhabited

end Sys2Proof
end

