-- ==== Sys2Proof/Syntax.lean ====
section
/-! DEFINITION. The 34 instructions of spec/30_encoding.md R96, one constructor per row of spec/opcode_table.json.
The operand types are the fields of R91: `x`, `y` a register number, `n` a 4-bit count, `nn` an 8-bit immediate,
`nnn` a 12-bit address. UNKNOWN is no row of the table: it is the other result of `decode` (Decode.lean). -/

namespace Sys2Proof

inductive Instr where
  /-- `00E0` CLS (R175) -/
  | cls
  /-- `00EE` RET (R120) -/
  | ret
  /-- `1NNN` JP nnn (R121) -/
  | jp (nnn : BitVec 12)
  /-- `2NNN` CALL nnn (R122) -/
  | call (nnn : BitVec 12)
  /-- `3XNN` SE Vx, nn (R130) -/
  | seImm (x : Reg) (nn : Byte)
  /-- `4XNN` SNE Vx, nn (R131) -/
  | sneImm (x : Reg) (nn : Byte)
  /-- `5XY0` SE Vx, Vy (R132) -/
  | seReg (x y : Reg)
  /-- `6XNN` LD Vx, nn (R140) -/
  | ldImm (x : Reg) (nn : Byte)
  /-- `7XNN` ADD Vx, nn (R141) -/
  | addImm (x : Reg) (nn : Byte)
  /-- `8XY0` LD Vx, Vy (R151) -/
  | ldReg (x y : Reg)
  /-- `8XY1` OR Vx, Vy (R152) -/
  | orReg (x y : Reg)
  /-- `8XY2` AND Vx, Vy (R153) -/
  | andReg (x y : Reg)
  /-- `8XY3` XOR Vx, Vy (R154) -/
  | xorReg (x y : Reg)
  /-- `8XY4` ADD Vx, Vy (R155) -/
  | addReg (x y : Reg)
  /-- `8XY5` SUB Vx, Vy (R156) -/
  | subReg (x y : Reg)
  /-- `8XY6` SHR Vx, Vy (R157) -/
  | shrReg (x y : Reg)
  /-- `8XY7` SUBN Vx, Vy (R158) -/
  | subnReg (x y : Reg)
  /-- `8XYE` SHL Vx, Vy (R159) -/
  | shlReg (x y : Reg)
  /-- `9XY0` SNE Vx, Vy (R133) -/
  | sneReg (x y : Reg)
  /-- `ANNN` LD I, nnn (R142) -/
  | ldI (nnn : BitVec 12)
  /-- `BNNN` JP V0, nnn (R123) -/
  | jpV0 (nnn : BitVec 12)
  /-- `CXNN` RND Vx, nn (R170) -/
  | rnd (x : Reg) (nn : Byte)
  /-- `DXYN` DRW Vx, Vy, n (R176) -/
  | drw (x y : Reg) (n : BitVec 4)
  /-- `EX9E` SKP Vx (R185) -/
  | skp (x : Reg)
  /-- `EXA1` SKNP Vx (R186) -/
  | sknp (x : Reg)
  /-- `FX07` LD Vx, DT (R195) -/
  | ldVxDt (x : Reg)
  /-- `FX0A` LD Vx, K (R187) -/
  | ldVxK (x : Reg)
  /-- `FX15` LD DT, Vx (R196) -/
  | ldDtVx (x : Reg)
  /-- `FX18` LD ST, Vx (R197) -/
  | ldStVx (x : Reg)
  /-- `FX1E` ADD I, Vx (R205) -/
  | addI (x : Reg)
  /-- `FX29` LD F, Vx (R206) -/
  | ldF (x : Reg)
  /-- `FX33` LD B, Vx (R207) -/
  | ldB (x : Reg)
  /-- `FX55` LD [I], Vx (R208) -/
  | storeRegs (x : Reg)
  /-- `FX65` LD Vx, [I] (R209) -/
  | loadRegs (x : Reg)
  deriving DecidableEq, Repr

end Sys2Proof
end

