-- ==== Sys2Proof/WellFormed.lean ====
section
/-! DEFINITION. Which instructions are well-formed. The operand types of `Instr` already hold the bounds of the
fields of spec/30_encoding.md R91, and R93 adds nothing: "every value 0..15 names a register, so no register
field can be invalid". So there is no check that an `Instr` could fail, and no ill-formed term. What the spec
calls no instruction is a WORD (R98), and `decode` gives it as `UNKNOWN`. -/

namespace Sys2Proof

/-- Every instruction is well-formed (R93), said constructor by constructor so that a new one is not passed over. -/
def Instr.wellFormed : Instr → Bool
  | .cls | .ret => true
  | .jp _ | .call _ | .ldI _ | .jpV0 _ => true
  | .seImm _ _ | .sneImm _ _ | .ldImm _ _ | .addImm _ _ | .rnd _ _ => true
  | .seReg _ _ | .sneReg _ _ | .ldReg _ _ | .orReg _ _ | .andReg _ _ | .xorReg _ _ => true
  | .addReg _ _ | .subReg _ _ | .shrReg _ _ | .subnReg _ _ | .shlReg _ _ => true
  | .drw _ _ _ => true
  | .skp _ | .sknp _ | .ldVxDt _ | .ldVxK _ | .ldDtVx _ | .ldStVx _ => true
  | .addI _ | .ldF _ | .ldB _ | .storeRegs _ | .loadRegs _ => true

end Sys2Proof
end

