-- ==== Sys2Proof/Decode.lean ====
section
/-! DEFINITION. Decoding and encoding, from spec/30_encoding.md: the fields of R91, the total decode function of
R95, the opcode map of R96 as a list of mask and match, and the encoder from the formats of R92. -/

namespace Sys2Proof

/-- `op`, the opcode family, bits 15:12 (R91). -/
def Word.op (w : Word) : BitVec 4 := w.extractLsb 15 12

/-- `x`, bits 11:8 (R91). -/
def Word.x (w : Word) : Reg := (w.extractLsb 11 8).toFin

/-- `y`, bits 7:4 (R91). -/
def Word.y (w : Word) : Reg := (w.extractLsb 7 4).toFin

/-- `n`, bits 3:0 (R91). -/
def Word.n (w : Word) : BitVec 4 := w.extractLsb 3 0

/-- `nn`, bits 7:0 (R91). -/
def Word.nn (w : Word) : Byte := w.extractLsb 7 0

/-- `nnn`, bits 11:0 (R91). -/
def Word.nnn (w : Word) : BitVec 12 := w.extractLsb 11 0

/-- What the decoder answers: an instruction, or UNKNOWN with the whole word (R95, R220). -/
inductive Decoded where
  | instr (i : Instr)
  | unknown (w : Word)
  deriving DecidableEq, Repr

/-- Family 0x0: two single words, every other one UNKNOWN (R94, R98). -/
def decodeSystem (w : Word) : Decoded :=
  if w = 0x00E0 then .instr .cls else if w = 0x00EE then .instr .ret else .unknown w

/-- Family 0x8: the sub-opcode is `n` (R95). -/
def decodeAlu (w : Word) : Decoded :=
  match w.n.toNat with
  | 0x0 => .instr (.ldReg w.x w.y)
  | 0x1 => .instr (.orReg w.x w.y)
  | 0x2 => .instr (.andReg w.x w.y)
  | 0x3 => .instr (.xorReg w.x w.y)
  | 0x4 => .instr (.addReg w.x w.y)
  | 0x5 => .instr (.subReg w.x w.y)
  | 0x6 => .instr (.shrReg w.x w.y)
  | 0x7 => .instr (.subnReg w.x w.y)
  | 0xE => .instr (.shlReg w.x w.y)
  | _ => .unknown w

/-- Family 0xE: the sub-opcode is `nn` (R95). -/
def decodeKeypad (w : Word) : Decoded :=
  match w.nn.toNat with
  | 0x9E => .instr (.skp w.x)
  | 0xA1 => .instr (.sknp w.x)
  | _ => .unknown w

/-- Family 0xF: the sub-opcode is `nn` (R95). -/
def decodeMisc (w : Word) : Decoded :=
  match w.nn.toNat with
  | 0x07 => .instr (.ldVxDt w.x)
  | 0x0A => .instr (.ldVxK w.x)
  | 0x15 => .instr (.ldDtVx w.x)
  | 0x18 => .instr (.ldStVx w.x)
  | 0x1E => .instr (.addI w.x)
  | 0x29 => .instr (.ldF w.x)
  | 0x33 => .instr (.ldB w.x)
  | 0x55 => .instr (.storeRegs w.x)
  | 0x65 => .instr (.loadRegs w.x)
  | _ => .unknown w

/-- `decode(w)` (R95): total, a function of the word alone. -/
def decode (w : Word) : Decoded :=
  match w.op.toNat with
  | 0x0 => decodeSystem w
  | 0x1 => .instr (.jp w.nnn)
  | 0x2 => .instr (.call w.nnn)
  | 0x3 => .instr (.seImm w.x w.nn)
  | 0x4 => .instr (.sneImm w.x w.nn)
  | 0x5 => if w.n = 0 then .instr (.seReg w.x w.y) else .unknown w
  | 0x6 => .instr (.ldImm w.x w.nn)
  | 0x7 => .instr (.addImm w.x w.nn)
  | 0x8 => decodeAlu w
  | 0x9 => if w.n = 0 then .instr (.sneReg w.x w.y) else .unknown w
  | 0xA => .instr (.ldI w.nnn)
  | 0xB => .instr (.jpV0 w.nnn)
  | 0xC => .instr (.rnd w.x w.nn)
  | 0xD => .instr (.drw w.x w.y w.n)
  | 0xE => decodeKeypad w
  | _ => decodeMisc w

/-- The word that two consecutive bytes hold, the byte at the lower address first: big-endian (R65, R90). -/
def wordOfBytes (hi lo : Byte) : Word := hi ++ lo

/-- The byte of a word that lies at the lower address (R65). -/
def Word.hiByte (w : Word) : Byte := w.extractLsb 15 8

/-- The byte of a word that lies at the higher address (R65). -/
def Word.loByte (w : Word) : Byte := w.extractLsb 7 0

/-- Format NNN: the family and a 12-bit address (R92). -/
def packNNN (h : BitVec 4) (nnn : BitVec 12) : Word := h ++ nnn

/-- Format XNN: the family, a register and a byte (R92); format X is this one with a fixed byte. -/
def packXNN (h : BitVec 4) (x : Reg) (nn : Byte) : Word := h ++ BitVec.ofFin (w := 4) x ++ nn

/-- Format XYN: the family, two registers and a nibble (R92); format XY is this one with a fixed nibble. -/
def packXYN (h : BitVec 4) (x y : Reg) (n : BitVec 4) : Word :=
  h ++ BitVec.ofFin (w := 4) x ++ BitVec.ofFin (w := 4) y ++ n

/-- The one word of an instruction, from the patterns of R96. -/
def encode : Instr → Word
  | .cls => 0x00E0
  | .ret => 0x00EE
  | .jp nnn => packNNN 0x1 nnn
  | .call nnn => packNNN 0x2 nnn
  | .seImm x nn => packXNN 0x3 x nn
  | .sneImm x nn => packXNN 0x4 x nn
  | .seReg x y => packXYN 0x5 x y 0x0
  | .ldImm x nn => packXNN 0x6 x nn
  | .addImm x nn => packXNN 0x7 x nn
  | .ldReg x y => packXYN 0x8 x y 0x0
  | .orReg x y => packXYN 0x8 x y 0x1
  | .andReg x y => packXYN 0x8 x y 0x2
  | .xorReg x y => packXYN 0x8 x y 0x3
  | .addReg x y => packXYN 0x8 x y 0x4
  | .subReg x y => packXYN 0x8 x y 0x5
  | .shrReg x y => packXYN 0x8 x y 0x6
  | .subnReg x y => packXYN 0x8 x y 0x7
  | .shlReg x y => packXYN 0x8 x y 0xE
  | .sneReg x y => packXYN 0x9 x y 0x0
  | .ldI nnn => packNNN 0xA nnn
  | .jpV0 nnn => packNNN 0xB nnn
  | .rnd x nn => packXNN 0xC x nn
  | .drw x y n => packXYN 0xD x y n
  | .skp x => packXNN 0xE x 0x9E
  | .sknp x => packXNN 0xE x 0xA1
  | .ldVxDt x => packXNN 0xF x 0x07
  | .ldVxK x => packXNN 0xF x 0x0A
  | .ldDtVx x => packXNN 0xF x 0x15
  | .ldStVx x => packXNN 0xF x 0x18
  | .addI x => packXNN 0xF x 0x1E
  | .ldF x => packXNN 0xF x 0x29
  | .ldB x => packXNN 0xF x 0x33
  | .storeRegs x => packXNN 0xF x 0x55
  | .loadRegs x => packXNN 0xF x 0x65

/-- The word a decoding result stands for. -/
def Decoded.word : Decoded → Word
  | .instr i => encode i
  | .unknown w => w

/-- One row of the opcode map: a word is the row's instruction when `w & mask = pattern` (R95, R96). -/
structure OpcodeRow where
  mask : Word
  pattern : Word
  deriving DecidableEq, Repr

/-- `w & mask = match` (R95). -/
def OpcodeRow.covers (r : OpcodeRow) (w : Word) : Bool := w &&& r.mask == r.pattern

/-- The rows of families 0x0 to 0x7, the match / mask column of R96. -/
def opcodeRowsLow : List OpcodeRow :=
  [⟨0xFFFF, 0x00E0⟩, ⟨0xFFFF, 0x00EE⟩, ⟨0xF000, 0x1000⟩, ⟨0xF000, 0x2000⟩, ⟨0xF000, 0x3000⟩,
   ⟨0xF000, 0x4000⟩, ⟨0xF00F, 0x5000⟩, ⟨0xF000, 0x6000⟩, ⟨0xF000, 0x7000⟩]

/-- The rows of family 0x8 (R96). -/
def opcodeRowsAlu : List OpcodeRow :=
  [⟨0xF00F, 0x8000⟩, ⟨0xF00F, 0x8001⟩, ⟨0xF00F, 0x8002⟩, ⟨0xF00F, 0x8003⟩, ⟨0xF00F, 0x8004⟩,
   ⟨0xF00F, 0x8005⟩, ⟨0xF00F, 0x8006⟩, ⟨0xF00F, 0x8007⟩, ⟨0xF00F, 0x800E⟩]

/-- The rows of families 0x9 to 0xF (R96). -/
def opcodeRowsHigh : List OpcodeRow :=
  [⟨0xF00F, 0x9000⟩, ⟨0xF000, 0xA000⟩, ⟨0xF000, 0xB000⟩, ⟨0xF000, 0xC000⟩, ⟨0xF000, 0xD000⟩,
   ⟨0xF0FF, 0xE09E⟩, ⟨0xF0FF, 0xE0A1⟩, ⟨0xF0FF, 0xF007⟩, ⟨0xF0FF, 0xF00A⟩, ⟨0xF0FF, 0xF015⟩,
   ⟨0xF0FF, 0xF018⟩, ⟨0xF0FF, 0xF01E⟩, ⟨0xF0FF, 0xF029⟩, ⟨0xF0FF, 0xF033⟩, ⟨0xF0FF, 0xF055⟩,
   ⟨0xF0FF, 0xF065⟩]

/-- The opcode map of R96: 34 rows. -/
def opcodeRows : List OpcodeRow := opcodeRowsLow ++ opcodeRowsAlu ++ opcodeRowsHigh

/-- The word that the low `nbits` bits of `w` give, every bit above them 0 (the host's numbering of
spec/opcode_table.json: one 16-bit word, bit 0 its least significant bit). -/
def tableWord (nbits w : Nat) : Word := BitVec.ofNat 16 (w % 2 ^ nbits)

/-- The instruction the decoder reads from a word of the opcode table, its two bytes laid out as memory holds
them; none for UNKNOWN. -/
def decodeTableWord (nbits w : Nat) : Option Instr :=
  let word := tableWord nbits w
  match decode (wordOfBytes word.hiByte word.loByte) with
  | .instr i => some i
  | .unknown _ => none

end Sys2Proof
end

