-- ==== Sys2Proof/Config.lean ====
section
/-! DEFINITION. What is fixed for this hardware (spec/00_scope.md R7), and the free values: the inputs the host
gives when the script of host events held in `State` has run out (notes/assumptions 1 and 2). -/

namespace Sys2Proof

/-- `MEM_SIZE`: addresses `0x000` to `0xFFF` (R7, R37). -/
def Config.memSize : Nat := 4096

/-- `FONT_BASE`: the first byte of the glyph font (R7). -/
def Config.fontBase : Nat := 0x050

/-- `FONT_SIZE`: 16 glyphs of 5 bytes (R7). -/
def Config.fontSize : Nat := 80

/-- `GLYPH_BYTES`: bytes (rows) of one glyph (R7). -/
def Config.glyphBytes : Nat := 5

/-- `PROG_BASE`: where a program is loaded and where execution starts (R7). -/
def Config.progBase : Nat := 0x200

/-- `PROG_MAX`: the longest loadable program, `MEM_SIZE - PROG_BASE` bytes (R7, R276). -/
def Config.progMax : Nat := Config.memSize - Config.progBase

/-- `STACK_DEPTH`: entries of the call stack (R7, R34). -/
def Config.stackDepth : Nat := 16

/-- `TIMER_HZ`: timer counts per second (R7, R250). -/
def Config.timerHz : Nat := 60

/-- FREE VALUE. The `keys` argument of the `n`-th `Step` that the host issues after the script of events in
`State` has run out: any 16 key states (R23, R39; notes/assumptions 2). -/
opaque Config.freeKeys : Nat → BitVec 16

/-- FREE VALUE. The `rnd` argument of that `Step`: "an 8-bit value on which the CORE places no constraint at
all" (R40, R170; notes/assumptions 2). -/
opaque Config.freeRnd : Nat → Byte

/-- FREE VALUE. The time that elapses before that `Step`: any `e >= 0` (R24, R252; notes/assumptions 2). -/
opaque Config.freeElapsed : Nat → Elapsed

end Sys2Proof
end

