-- ==== Sys2Proof/Machine/State.lean ====
section
/-! DEFINITION. The state of the CORE as plain data: everything spec/10_state.md gives the machine (R30 to R45),
and beside it, in the field `io`, the interface to the host: the script of events still to come, the inputs of
the current `Step`, the result of the last event (notes/assumptions 1 to 4). -/

namespace Sys2Proof.Machine

/-- `PHASE` (R42): `idle` = reset done and no program loaded, `run` = `Step` accepted, `halt` = a fatal condition
has occurred. -/
inductive Phase where
  | idle
  | run
  | halt
  deriving DecidableEq, Repr

/-- `CAUSE` (R43, R230): the fatal condition that put the CORE into `HALT`; `none` while it is not halted. -/
inductive Cause where
  | none
  | programLoadOverflow
  | stackOverflow
  | outOfBoundsFetch
  | memoryOutOfBounds
  deriving DecidableEq, Repr

/-- The diagnostic conditions (R230). -/
inductive Diagnostic where
  | stackUnderflow
  | unimplementedOpcode
  deriving DecidableEq, Repr

/-- The result of a `Step` or a `Load` (R46). The address and the word of a fatal result are there where R46 gives
them: both for an execute-stage condition, the address alone for `OutOfBoundsFetch`, neither for
`ProgramLoadOverflow`. -/
inductive Result where
  | ok
  | diagnostic (d : Diagnostic) (pc word : Word)
  | fatal (c : Cause) (pc word : Option Word)
  | refused
  deriving DecidableEq, Repr

/-- The events by which the CORE changes state (R11, R21 to R24). -/
inductive Event where
  | reset
  | load (bytes : List Byte)
  | step (keys : BitVec 16) (rnd : Byte)
  | timerUpdate (e : Elapsed)
  deriving DecidableEq, Repr

/-- Main memory: the cells that differ from what memory holds after `Reset`, in the canonical form of `Memory.wf`
(R37, R61; notes/assumptions 5). -/
abbrev Memory := List Host.Cell

/-- The pixel buffer (R38): `fb[y][x]` is the cell in row `y`, column `x`; `true` is a pixel that is on. -/
abbrev FrameBuffer := Vector (Vector Bool 64) 32

/-- The interface to the host. No field of it is state that the spec gives the CORE to keep: they carry the
events' arguments and results (R23, R24, R25 (c), R39, R40, R46; notes/assumptions 1 to 4). -/
structure Io where
  /-- the host's events still to come, the next one first (the model's own) -/
  events : List Event
  /-- how many times the inputs were drawn from the free values of Config (the model's own) -/
  drawn : Nat
  /-- the `keys` argument of the current `Step`: bit `k` is 1 when key `k` is pressed (R39) -/
  keys : BitVec 16
  /-- the `rnd` argument of the current `Step` (R40) -/
  rnd : Byte
  /-- the result of the last `Step` or `Load`; none when there was none since the last `Reset` (R25 (c), R46) -/
  result : Option Result
  deriving DecidableEq, Repr

/-- The whole state. -/
structure State where
  /-- V0 to VF (R30) -/
  v : Vector Byte 16
  /-- the index register `I` (R32) -/
  i : Word
  /-- the program counter (R33) -/
  pc : Word
  /-- the stack cursor `SP`, 0 to 16 (R34) -/
  sp : Fin 17
  /-- the call stack, `STACK[0]` to `STACK[15]` (R34) -/
  stack : Vector Word 16
  /-- the delay timer (R35) -/
  dt : Byte
  /-- the sound timer (R35) -/
  st : Byte
  /-- the timer fraction `FRAC`, in timer counts (R36) -/
  frac : Rat
  /-- main memory (R37) -/
  mem : Memory
  /-- the pixel buffer (R38) -/
  fb : FrameBuffer
  /-- `PHASE` (R42) -/
  phase : Phase
  /-- `CAUSE` (R43) -/
  cause : Cause
  /-- `FAULT_PC` (R44) -/
  faultPc : Word
  /-- `FAULT_WORD` (R44) -/
  faultWord : Word
  /-- `DIAG_UNIMPL`, sticky (R45) -/
  diagUnimpl : Bool
  /-- `DIAG_UNDERFLOW`, sticky (R45) -/
  diagUnderflow : Bool
  /-- `DIAG_PC` (R45) -/
  diagPc : Word
  /-- `DIAG_WORD` (R45) -/
  diagWord : Word
  /-- the interface to the host -/
  io : Io
  deriving DecidableEq, Repr

/-- No step of this machine ends in a fault: the spec gives every condition an entry (R240, R241), which is a
next state, and says what every event does in every phase (R23, R242). So the type has no constructor. -/
inductive Fault where
  deriving DecidableEq, Repr

/-- Why a step has no meaning. -/
inductive Refusal where
  /-- raised by no instruction: every arm of `exec` has its meaning (safe) -/
  | notModelled (mnemonic : String)
  deriving DecidableEq, Repr

/-- What an instruction and an event answer. -/
abbrev Outcome := Host.Outcome State Fault Refusal

/-- The state after `Reset` (R47, R270): memory as reset leaves it (nothing listed), `PC = 0x200`, everything
else zero, `PHASE = IDLE`. The interface holds no event, no draw, no input and no result (notes/assumptions 4). -/
def State.reset : State where
  v := Vector.replicate 16 0
  i := 0
  pc := BitVec.ofNat 16 Config.progBase
  sp := 0
  stack := Vector.replicate 16 0
  dt := 0
  st := 0
  frac := 0
  mem := []
  fb := Vector.replicate 32 (Vector.replicate 64 false)
  phase := .idle
  cause := .none
  faultPc := 0
  faultWord := 0
  diagUnimpl := false
  diagUnderflow := false
  diagPc := 0
  diagWord := 0
  io := { events := [], drawn := 0, keys := 0, rnd := 0, result := none }

end Sys2Proof.Machine
end

