-- ==== Sys2Proof/Machine/Ops.lean ====
section
/-! DEFINITION. The named operations over memory, registers, the stack, the timers and the pixel buffer, and
raising a condition: ONE operation for a fatal condition, one for a diagnostic (spec/60_exceptions.md R240,
R241). There is no return from a condition (R243). -/

namespace Sys2Proof.Machine

/-! ## Memory -/

/-- The 16 glyphs, 5 rows each, top row first (R62: "carry the 80 bytes as a configuration value";
notes/assumptions 6). -/
def font : List Byte :=
  [0xF0, 0x90, 0x90, 0x90, 0xF0] ++ [0x20, 0x60, 0x20, 0x20, 0x70] ++
  [0xF0, 0x10, 0xF0, 0x80, 0xF0] ++ [0xF0, 0x10, 0xF0, 0x10, 0xF0] ++
  [0x90, 0x90, 0xF0, 0x10, 0x10] ++ [0xF0, 0x80, 0xF0, 0x10, 0xF0] ++
  [0xF0, 0x80, 0xF0, 0x90, 0xF0] ++ [0xF0, 0x10, 0x20, 0x40, 0x40] ++
  [0xF0, 0x90, 0xF0, 0x90, 0xF0] ++ [0xF0, 0x90, 0xF0, 0x10, 0xF0] ++
  [0xF0, 0x90, 0xF0, 0x90, 0x90] ++ [0xE0, 0x90, 0xE0, 0x90, 0xE0] ++
  [0xF0, 0x80, 0x80, 0x80, 0xF0] ++ [0xE0, 0x90, 0x90, 0x90, 0xE0] ++
  [0xF0, 0x80, 0xF0, 0x80, 0xF0] ++ [0xF0, 0x80, 0xF0, 0x80, 0x80]

/-- What an address that memory does not list reads as: its contents after `Reset`, the font in
`0x050 .. 0x09F` and zero everywhere else (R61, R270). -/
def resetByte (a : Nat) : Byte :=
  if Config.fontBase ≤ a ∧ a < Config.fontBase + Config.fontSize then font.getD (a - Config.fontBase) 0 else 0

/-- The canonical form: addresses strictly rising, all inside `0x000 .. 0xFFF`, no cell equal to what an unlisted
address reads as. -/
abbrev Memory.wf (m : Memory) : Prop :=
  m.Pairwise (fun c d => c.1 < d.1) ∧ ∀ c ∈ m, c.1 < Config.memSize ∧ c.2 ≠ resetByte c.1

/-- The byte at an address, `MEM[a]`. An instruction checks that the address exists before it reads
(`State.inBounds`, R66, R72). -/
def Memory.read : Memory → Nat → Byte
  | [], a => resetByte a
  | (b, u) :: rest, a => if b = a then u else Memory.read rest a

/-- Put a cell in its place in a rising list. -/
def Memory.put : Memory → Nat → Byte → Memory
  | [], a, u => [(a, u)]
  | (b, w) :: rest, a, u =>
    if a < b then (a, u) :: (b, w) :: rest
    else if a = b then (a, u) :: rest
    else (b, w) :: Memory.put rest a u

/-- `MEM[a] <- u`: exactly one byte changes (R67). A cell whose value is the reset value is not listed; an address
that does not exist is never stored to. -/
def Memory.write (m : Memory) (a : Nat) (u : Byte) : Memory :=
  if a < Config.memSize then
    if u = resetByte a then m.filter (fun c => c.1 ≠ a) else Memory.put m a u
  else m

/-- Store bytes at consecutive ascending addresses from `a`. -/
def Memory.writeBlock : Memory → Nat → List Byte → Memory
  | m, _, [] => m
  | m, a, u :: us => Memory.writeBlock (Memory.write m a u) (a + 1) us

/-- The bytes at `n` consecutive ascending addresses from `a`. -/
def Memory.readBlock (m : Memory) (a n : Nat) : List Byte := (List.range n).map fun r => m.read (a + r)

/-- The instruction word at an address, `256 * MEM[a] + MEM[a+1]` (R65, R68). -/
def Memory.fetch (m : Memory) (a : Nat) : Word := wordOfBytes (m.read a) (m.read (a + 1))

/-! ## Registers -/

/-- `V[x]` (R30): no register is hardwired. -/
def State.getV (s : State) (x : Reg) : Byte := s.v[x]

/-- `V[x] <- b` (R30). -/
def State.setV (s : State) (x : Reg) (b : Byte) : State := { s with v := s.v.set x b }

/-- `I <- w`: all 16 bits are held (R32). -/
def State.setI (s : State) (w : Word) : State := { s with i := w }

/-- `PC <- target` (R33): never checked, never reduced. -/
def State.jump (s : State) (target : Word) : State := { s with pc := target }

/-- The advance of fetch, and the skip of a skip instruction: `PC <- PC + 2` (R33, R70). -/
def State.advance (s : State) : State := { s with pc := s.pc + 2 }

/-! ## The stack (R34) -/

/-- `push(v)`; none on a full stack. -/
def State.push (s : State) (w : Word) : Option State :=
  if h : s.sp.val < 16 then
    some { s with stack := s.stack.set s.sp.val w h, sp := ⟨s.sp.val + 1, by omega⟩ }
  else none

/-- `pop()`: the prior top and the state after; "no value" on an empty stack. The entry is not cleared. -/
def State.pop (s : State) : Option (Word × State) :=
  if h : s.sp.val = 0 then none
  else some (s.stack[s.sp.val - 1]'(by omega), { s with sp := ⟨s.sp.val - 1, by omega⟩ })

/-! ## Conditions -/

/-- Entry on a fatal condition (R240): `PHASE`, `CAUSE`, `FAULT_PC`, `FAULT_WORD` and the result are written, nothing
else. Where the condition has no address or no word the field is 0 (R44, R230). -/
def State.raiseFatal (s : State) (c : Cause) (pc word : Option Word) : State :=
  { s with
    phase := .halt
    cause := c
    faultPc := pc.getD 0
    faultWord := word.getD 0
    io := { s.io with result := some (.fatal c pc word) } }

/-- Entry on a diagnostic condition (R241): its sticky flag, `DIAG_PC`, `DIAG_WORD` and the result are written,
nothing else. -/
def State.raiseDiagnostic (s : State) (d : Diagnostic) (pc word : Word) : State :=
  { s with
    diagUnimpl := match d with | .unimplementedOpcode => true | .stackUnderflow => s.diagUnimpl
    diagUnderflow := match d with | .unimplementedOpcode => s.diagUnderflow | .stackUnderflow => true
    diagPc := pc
    diagWord := word
    io := { s.io with result := some (.diagnostic d pc word) } }

/-- The address the instruction under execution was fetched from: fetch has advanced `PC` by 2 (R70). -/
def State.pc0 (s : State) : Word := s.pc - 2

/-- A fatal condition of the execute stage of `i`: the instruction word is the one word that decodes to `i`
(R99, R240; notes/assumptions 7). -/
def State.raiseInExec (s : State) (c : Cause) (i : Instr) : State :=
  s.raiseFatal c (some s.pc0) (some (encode i))

/-- An event that the phase does not accept (R23, R278): no state changes, the result says so. -/
def State.refuse (s : State) : State := { s with io := { s.io with result := some .refused } }

/-! ## The timers -/

/-- The shared end of every write to a timer: with both timers zero the fraction is cleared (R197, R250). -/
def State.settleFrac (s : State) : State := if s.dt = 0 ∧ s.st = 0 then { s with frac := 0 } else s

/-- Saturating decrement by `k` counts (R150 (e), R250). -/
def decay (t : Byte) (k : Nat) : Byte := BitVec.ofNat 8 (t.toNat - min t.toNat k)

/-! ## The pixel buffer (R38) -/

/-- `FB[y][x]`. -/
def FrameBuffer.pixel (fb : FrameBuffer) (x : Fin 64) (y : Fin 32) : Bool := fb[y][x]

/-- `FB[y][x] <- b`. -/
def FrameBuffer.setPixel (fb : FrameBuffer) (x : Fin 64) (y : Fin 32) (b : Bool) : FrameBuffer :=
  fb.set y (fb[y].set x b)

/-- The screen with every pixel off. -/
def FrameBuffer.blank : FrameBuffer := Vector.replicate 32 (Vector.replicate 64 false)

end Sys2Proof.Machine
end

