-- ==== Sys2Proof/Machine/Flags.lean ====
section
/-! DEFINITION. The flag computations: what an instruction writes to VF as a side effect (spec/10_state.md R31,
spec/43_alu.md R155 to R161). -/

namespace Sys2Proof.Machine

/-- A flag in VF "is always exactly `0x00` or `0x01`" (R150 (h)). -/
def flag (b : Bool) : Byte := if b then 1 else 0

/-- The carry out of bit 7: the 9-bit sum exceeded 255 (R155). -/
def carryOut (a b : Byte) : Bool := decide (a.toNat + b.toNat > 255)

/-- NOT borrow of `a - b`, true at equality (R156, R158). -/
def noBorrow (a b : Byte) : Bool := decide (b.toNat ≤ a.toNat)

/-- Bit 0, the bit a right shift by one moves out (R157). -/
def bitOutRight (b : Byte) : Bool := b.getLsbD 0

/-- Bit 7, the bit a left shift by one moves out (R159). -/
def bitOutLeft (b : Byte) : Bool := b.getLsbD 7

/-- The result to `V[x]` first, the flag to VF last, so that with `x = 0xF` the flag stays (R161). -/
def State.setResultFlag (s : State) (x : Reg) (r : Byte) (f : Bool) : State :=
  (s.setV x r).setV Reg.vf (flag f)

end Sys2Proof.Machine
end

