-- ==== Sys2Proof/Machine/Operands.lean ====
section
/-! DEFINITION. The operand forms: immediates, key and glyph numbers, the data window at `I`, the register block. -/

namespace Sys2Proof.Machine

/-- A 12-bit address as a 16-bit value: zero-extended (R93). -/
def zext16 {w : Nat} (a : BitVec w) : Word := a.setWidth 16

/-- The low nibble of a register value, its key number or glyph number: bits 7:4 are ignored (R188, R206). -/
def lowNibble (b : Byte) : Fin 16 := (b.extractLsb 3 0).toFin

/-- The address of a glyph, `FONT_BASE + GLYPH_BYTES * d` (R63). -/
def glyphAddress (d : Fin 16) : Word := BitVec.ofNat 16 (Config.fontBase + Config.glyphBytes * d.val)

/-- Key `k` is pressed (R39). -/
def State.keyDown (s : State) (k : Reg) : Bool := s.io.keys.getLsbD k

/-- The smallest key that is pressed, if any (R187). -/
def State.lowestKey (s : State) : Option Reg := Reg.all.find? s.keyDown

/-- `len` data bytes at `I` all exist: the highest address `I + len - 1`, the unreduced sum, is at most `0xFFF`; no
byte, no check (R72, R176, R210). -/
def State.inBounds (s : State) (len : Nat) : Bool := len == 0 || decide (s.i.toNat + len - 1 ≤ 0xFFF)

/-- An instruction that accesses `len` bytes at `I`: all or nothing (R72, R210). -/
def State.withData (s : State) (i : Instr) (len : Nat) (after : State) : State :=
  if s.inBounds len then after else s.raiseInExec .memoryOutOfBounds i

/-- The registers `V[0] .. V[x]` by number, ascending (R208, R209). -/
def Reg.upTo (x : Reg) : List Reg := Reg.all.filter (· ≤ x)

/-- `I` after a block transfer of `x + 1` bytes, modulo 65536 (R208, R209). -/
def State.stepI (s : State) (x : Reg) : State := s.setI (s.i + BitVec.ofNat 16 (x.val + 1))

/-- The skip of a conditional skip: `PC <- PC + 2` when the condition holds (spec/41_skip.md). -/
def State.skipIf (s : State) (c : Bool) : State := if c then s.advance else s

end Sys2Proof.Machine
end

