-- ==== Sys2Proof/Machine/Alu.lean ====
section
/-! DEFINITION. Register-to-register ALU instructions (spec/43_alu.md): 8XY0 to 8XY7, 8XYE. The source registers
are read before anything is written (R160). -/

namespace Sys2Proof.Machine

/-- `8XY0` LD Vx, Vy (R151). -/
def execLdReg (x y : Reg) (s : State) : Outcome := .next (s.setV x (s.getV y))

/-- `8XY1` OR Vx, Vy (R152): VF is not written as a flag. -/
def execOr (x y : Reg) (s : State) : Outcome := .next (s.setV x (s.getV x ||| s.getV y))

/-- `8XY2` AND Vx, Vy (R153). -/
def execAnd (x y : Reg) (s : State) : Outcome := .next (s.setV x (s.getV x &&& s.getV y))

/-- `8XY3` XOR Vx, Vy (R154). -/
def execXor (x y : Reg) (s : State) : Outcome := .next (s.setV x (s.getV x ^^^ s.getV y))

/-- `8XY4` ADD Vx, Vy (R155): the sum modulo 256, VF the carry. -/
def execAdd (x y : Reg) (s : State) : Outcome :=
  .next (s.setResultFlag x (s.getV x + s.getV y) (carryOut (s.getV x) (s.getV y)))

/-- `8XY5` SUB Vx, Vy (R156): `V[x] - V[y]` modulo 256, VF the NOT borrow. -/
def execSub (x y : Reg) (s : State) : Outcome :=
  .next (s.setResultFlag x (s.getV x - s.getV y) (noBorrow (s.getV x) (s.getV y)))

/-- `8XY6` SHR Vx, Vy (R157): the source is VY. -/
def execShr (x y : Reg) (s : State) : Outcome :=
  .next (s.setResultFlag x (s.getV y >>> 1) (bitOutRight (s.getV y)))

/-- `8XY7` SUBN Vx, Vy (R158): `V[y] - V[x]` modulo 256, VF the NOT borrow. -/
def execSubn (x y : Reg) (s : State) : Outcome :=
  .next (s.setResultFlag x (s.getV y - s.getV x) (noBorrow (s.getV y) (s.getV x)))

/-- `8XYE` SHL Vx, Vy (R159): the source is VY. -/
def execShl (x y : Reg) (s : State) : Outcome :=
  .next (s.setResultFlag x (s.getV y <<< 1) (bitOutLeft (s.getV y)))

end Sys2Proof.Machine
end

