-- ==== Sys2Proof/Machine/Display.lean ====
section
/-! DEFINITION. Display instructions (spec/45_display.md): 00E0, DXYN. -/

namespace Sys2Proof.Machine

/-- The screen and the collision flag as the drawing loops of R176 carry them. -/
abbrev Drawing := FrameBuffer × Bool

/-- Toggle one cell; a cell that was on is a collision (R176). -/
def drawPixel (x : Fin 64) (y : Fin 32) (d : Drawing) : Drawing :=
  (d.1.setPixel x y (!d.1.pixel x y), d.2 || d.1.pixel x y)

/-- The column of sprite column `c` for a start column `vx`, modulo 64 (R176, R177 (a)). -/
def drawColumn (vx : Byte) (c : Nat) : Fin 64 := Fin.ofNat 64 (vx.toNat + c)

/-- The row of sprite row `r` for a start row `vy`, modulo 32 (R176, R177 (a)). -/
def drawLine (vy : Byte) (r : Nat) : Fin 32 := Fin.ofNat 32 (vy.toNat + r)

/-- One sprite byte, left to right: bit 7 is the leftmost pixel, a zero bit touches nothing (R176, R177 (c), (d)). -/
def drawByte (vx : Byte) (y : Fin 32) (b : Byte) (d : Drawing) : Drawing :=
  (List.range 8).foldl (fun d c => if b.getLsbD (7 - c) then drawPixel (drawColumn vx c) y d else d) d

/-- The sprite's rows, top to bottom, the first of them sprite row `r` (R176). -/
def drawRows (vx vy : Byte) : Nat → List Byte → Drawing → Drawing
  | _, [], d => d
  | r, b :: bs, d => drawRows vx vy (r + 1) bs (drawByte vx (drawLine vy r) b d)

/-- `00E0` CLS (R175). -/
def execCls (s : State) : Outcome := .next { s with fb := FrameBuffer.blank }

/-- The screen and the collision flag after the sprite of `n` rows at `I` is drawn at `(V[x], V[y])` (R176). -/
def State.drawing (s : State) (x y : Reg) (n : Nat) : Drawing :=
  drawRows (s.getV x) (s.getV y) 0 (s.mem.readBlock s.i.toNat n) (s.fb, false)

/-- `DXYN` DRW Vx, Vy, n (R176): XOR the sprite onto the screen with wraparound, VF the collision flag; nothing but
the fatal condition when a sprite byte does not exist. -/
def execDrw (x y : Reg) (n : BitVec 4) (s : State) : Outcome :=
  let d := s.drawing x y n.toNat
  .next (s.withData (.drw x y n) n.toNat ({ s with fb := d.1 }.setV Reg.vf (flag d.2)))

end Sys2Proof.Machine
end

