-- ==== Sys2Proof/Machine/Flow.lean ====
section
/-! DEFINITION. Control flow (spec/40_flow.md): 00EE, 1NNN, 2NNN, BNNN. `PC` is already the address of the
instruction plus 2 (R33, R70). -/

namespace Sys2Proof.Machine

/-- `00EE` RET (R120): a diagnostic and no effect on an empty stack. -/
def execRet (s : State) : Outcome :=
  match s.pop with
  | some (target, t) => .next (t.jump target)
  | none => .next (s.raiseDiagnostic .stackUnderflow s.pc0 (encode .ret))

/-- `1NNN` JP nnn (R121). -/
def execJp (nnn : BitVec 12) (s : State) : Outcome := .next (s.jump (zext16 nnn))

/-- `2NNN` CALL nnn (R122): fatal with nothing pushed on a full stack. -/
def execCall (nnn : BitVec 12) (s : State) : Outcome :=
  match s.push s.pc with
  | some t => .next (t.jump (zext16 nnn))
  | none => .next (s.raiseInExec .stackOverflow (.call nnn))

/-- `BNNN` JP V0, nnn (R123): the 16-bit sum, not reduced modulo 4096. -/
def execJpV0 (nnn : BitVec 12) (s : State) : Outcome := .next (s.jump (zext16 nnn + zext16 (s.getV 0)))

end Sys2Proof.Machine
end

