-- ==== Sys2Proof/Machine/Immediate.lean ====
section
/-! DEFINITION. Immediate instructions (spec/42_immediate.md): 6XNN, 7XNN, ANNN. -/

namespace Sys2Proof.Machine

/-- `6XNN` LD Vx, nn (R140). -/
def execLdImm (x : Reg) (nn : Byte) (s : State) : Outcome := .next (s.setV x nn)

/-- `7XNN` ADD Vx, nn (R141): 8-bit wraparound, VF not written as a flag. -/
def execAddImm (x : Reg) (nn : Byte) (s : State) : Outcome := .next (s.setV x (s.getV x + nn))

/-- `ANNN` LD I, nnn (R142). -/
def execLdI (nnn : BitVec 12) (s : State) : Outcome := .next (s.setI (zext16 nnn))

end Sys2Proof.Machine
end

