-- ==== Sys2Proof/Machine/IndexMemory.lean ====
section
/-! DEFINITION. Index-register and memory instructions (spec/48_index_memory.md): FX1E, FX29, FX33, FX55, FX65. -/

namespace Sys2Proof.Machine

/-- `FX1E` ADD I, Vx (R205): modulo 65536, VF not written. -/
def execAddI (x : Reg) (s : State) : Outcome := .next (s.setI (s.i + zext16 (s.getV x)))

/-- `FX29` LD F, Vx (R206): the glyph of the low nibble. -/
def execLdF (x : Reg) (s : State) : Outcome := .next (s.setI (glyphAddress (lowNibble (s.getV x))))

/-- The hundreds, tens and ones digit of a byte, each as a binary byte (R207). -/
def bcd (b : Byte) : List Byte :=
  [BitVec.ofNat 8 (b.toNat / 100), BitVec.ofNat 8 (b.toNat / 10 % 10), BitVec.ofNat 8 (b.toNat % 10)]

/-- `FX33` LD B, Vx (R207): three digits at `I`, `I+1`, `I+2`; `I` is not changed. -/
def execLdB (x : Reg) (s : State) : Outcome :=
  .next (s.withData (.ldB x) 3 { s with mem := s.mem.writeBlock s.i.toNat (bcd (s.getV x)) })

/-- `V[0] .. V[x]` as bytes, ascending (R208). -/
def State.firstRegs (s : State) (x : Reg) : List Byte := (Reg.upTo x).map s.getV

/-- `FX55` LD [I], Vx (R208): `x + 1` bytes ascending from `I`, then `I <- I + x + 1`. -/
def execStoreRegs (x : Reg) (s : State) : Outcome :=
  .next (s.withData (.storeRegs x) (x.val + 1)
    ({ s with mem := s.mem.writeBlock s.i.toNat (s.firstRegs x) }.stepI x))

/-- `V[k] <- MEM[I + k]` for each of the registers `k`, the base address being that of `s` (R209). -/
def State.loadFrom (s : State) (ks : List Reg) : State :=
  ks.foldl (fun t k => t.setV k (s.mem.read (s.i.toNat + k.val))) s

/-- `FX65` LD Vx, [I] (R209): `x + 1` bytes ascending from `I`, then `I <- I + x + 1`. -/
def execLoadRegs (x : Reg) (s : State) : Outcome :=
  .next (s.withData (.loadRegs x) (x.val + 1) ((s.loadFrom (Reg.upTo x)).stepI x))

end Sys2Proof.Machine
end

