-- ==== Sys2Proof/Machine/Keypad.lean ====
section
/-! DEFINITION. Keypad instructions (spec/46_keypad.md): EX9E, EXA1, FX0A. -/

namespace Sys2Proof.Machine

/-- `EX9E` SKP Vx (R185). -/
def execSkp (x : Reg) (s : State) : Outcome := .next (s.skipIf (s.keyDown (lowNibble (s.getV x))))

/-- `EXA1` SKNP Vx (R186). -/
def execSknp (x : Reg) (s : State) : Outcome := .next (s.skipIf (!s.keyDown (lowNibble (s.getV x))))

/-- `FX0A` LD Vx, K (R187): the smallest key that is down; with none down `PC <- PC - 2`, so that the next `Step`
fetches the same instruction again. -/
def execLdVxK (x : Reg) (s : State) : Outcome :=
  match s.lowestKey with
  | some k => .next (s.setV x (BitVec.ofNat 8 k.val))
  | none => .next (s.jump s.pc0)

end Sys2Proof.Machine
end

