-- ==== Sys2Proof/Machine/Random.lean ====
section
/-! DEFINITION. The random number instruction (spec/44_random.md): CXNN. -/

namespace Sys2Proof.Machine

/-- `CXNN` RND Vx, nn (R170): `RND & nn`, with `RND` the `rnd` argument of this `Step`. -/
def execRnd (x : Reg) (nn : Byte) (s : State) : Outcome := .next (s.setV x (s.io.rnd &&& nn))

end Sys2Proof.Machine
end

