-- ==== Sys2Proof/Machine/Skip.lean ====
section
/-! DEFINITION. Conditional skips (spec/41_skip.md): 3XNN, 4XNN, 5XY0, 9XY0. -/

namespace Sys2Proof.Machine

/-- `3XNN` SE Vx, nn (R130). -/
def execSeImm (x : Reg) (nn : Byte) (s : State) : Outcome := .next (s.skipIf (s.getV x == nn))

/-- `4XNN` SNE Vx, nn (R131). -/
def execSneImm (x : Reg) (nn : Byte) (s : State) : Outcome := .next (s.skipIf (s.getV x != nn))

/-- `5XY0` SE Vx, Vy (R132). -/
def execSeReg (x y : Reg) (s : State) : Outcome := .next (s.skipIf (s.getV x == s.getV y))

/-- `9XY0` SNE Vx, Vy (R133). -/
def execSneReg (x y : Reg) (s : State) : Outcome := .next (s.skipIf (s.getV x != s.getV y))

end Sys2Proof.Machine
end

