-- ==== Sys2Proof/Machine/TimerIo.lean ====
section
/-! DEFINITION. Timer instructions (spec/47_timer_io.md): FX07, FX15, FX18. -/

namespace Sys2Proof.Machine

/-- `FX07` LD Vx, DT (R195). -/
def execLdVxDt (x : Reg) (s : State) : Outcome := .next (s.setV x s.dt)

/-- `FX15` LD DT, Vx (R196), with the fraction rule of R197. -/
def execLdDtVx (x : Reg) (s : State) : Outcome := .next { s with dt := s.getV x }.settleFrac

/-- `FX18` LD ST, Vx (R197). -/
def execLdStVx (x : Reg) (s : State) : Outcome := .next { s with st := s.getV x }.settleFrac

end Sys2Proof.Machine
end

