-- ==== Sys2Proof/Machine/Events.lean ====
section
/-! DEFINITION. The events other than `Step`: `Reset`, `Load` and `TimerUpdate` (spec/10_state.md R21, R22, R24;
spec/70_reset_and_hazards.md; spec/60_exceptions.md R250). -/

namespace Sys2Proof.Machine

/-- `Reset` (R21, R270), accepted in every phase: all of the state takes its reset value. The host's events still
to come are no state of the CORE and stay (notes/assumptions 4). -/
def State.doReset (s : State) : State := { State.reset with io := { s.io with result := none } }

/-- `Load(bytes)` (R22, R275 to R278): in `IDLE` the bytes go to `0x200` upward and the phase becomes `RUN`; a program
too long changes no memory and is fatal; in another phase it is refused. -/
def State.load (s : State) (bytes : List Byte) : State :=
  match s.phase with
  | .idle =>
    if bytes.length ≤ Config.progMax then
      { s with
        mem := s.mem.writeBlock Config.progBase bytes
        phase := .run
        io := { s.io with result := some .ok } }
    else s.raiseFatal .programLoadOverflow none none
  | .run | .halt => s.refuse

/-- The rational number of seconds an elapsed time stands for (R24). -/
def Elapsed.seconds (e : Elapsed) : Rat := (e.num : Rat) / ((e.denMinusOne + 1 : Nat) : Rat)

/-- The timer counts owed at a `TimerUpdate`, `TIMER_HZ * e + FRAC` (R250). -/
def State.owed (s : State) (e : Elapsed) : Rat := (Config.timerHz : Rat) * Elapsed.seconds e + s.frac

/-- `TimerUpdate(e)` (R250), accepted in every phase: the whole counts owed are taken from each timer, not below
zero, and the fraction is carried. -/
def State.timerUpdate (s : State) (e : Elapsed) : State :=
  let amount := s.owed e
  let k := amount.floor.toNat
  { s with dt := decay s.dt k, st := decay s.st k, frac := amount - (k : Rat) }.settleFrac

end Sys2Proof.Machine
end

