-- ==== Sys2Proof/Machine/Unknown.lean ====
section
/-! DEFINITION. The UNKNOWN instruction (spec/49_unimplemented.md): every word that matches no opcode. -/

namespace Sys2Proof.Machine

/-- `UNKNOWN w` (R220): no operation, with the sticky diagnostic `UnimplementedOpcode`. -/
def execUnknown (w : Word) (s : State) : Outcome :=
  .next (s.raiseDiagnostic .unimplementedOpcode s.pc0 w)

end Sys2Proof.Machine
end

