-- ==== Sys2Proof/Machine/Cycle.lean ====
section
/-! DEFINITION. One engine cycle, the event `Step(keys, rnd)` (spec/20_memory.md R70), and the handling of one
event of the host. -/

namespace Sys2Proof.Machine

/-- The inputs of a `Step` are sampled, and its result is `Ok` until a condition is raised (R23, R39, R40, R46). -/
def State.sample (s : State) (keys : BitVec 16) (rnd : Byte) : State :=
  { s with io := { s.io with keys := keys, rnd := rnd, result := some .ok } }

/-- Both bytes of the instruction at `PC` exist (R68). -/
def State.fetchable (s : State) : Bool := decide (s.pc.toNat ≤ 0xFFE)

/-- The instruction word at `PC` (R65, R68). -/
def State.fetchWord (s : State) : Word := s.mem.fetch s.pc.toNat

/-- `execute` of a decoding result (R70, R95). -/
def execDecoded (d : Decoded) (s : State) : Outcome :=
  match d with
  | .instr i => exec i s
  | .unknown w => execUnknown w s

/-- `Step(keys, rnd)` in phase `RUN` (R70): the fetch bound, the fetch with its advance of `PC`, decode, execute. -/
def State.runCycle (s : State) : Outcome :=
  if s.fetchable then execDecoded (decode s.fetchWord) s.advance
  else .next (s.raiseFatal .outOfBoundsFetch (some s.pc) none)

/-- `Step(keys, rnd)` (R23, R70): refused with no state change unless the phase is `RUN`. -/
def State.cycle (s : State) (keys : BitVec 16) (rnd : Byte) : Outcome :=
  match s.phase with
  | .run => (s.sample keys rnd).runCycle
  | .idle | .halt => .next s.refuse

/-- One event of the host (R11, R20). -/
def State.handle (s : State) : Event → Outcome
  | .reset => .next s.doReset
  | .load bytes => .next (s.load bytes)
  | .step keys rnd => s.cycle keys rnd
  | .timerUpdate e => .next (s.timerUpdate e)

/-- The host past the end of the script: any time elapses, then a `Step` with any inputs (R26, R252;
notes/assumptions 2). -/
def State.freeHost (s : State) : Outcome :=
  let n := s.io.drawn
  let t := { s with io := { s.io with drawn := n + 1 } }
  (t.timerUpdate (Config.freeElapsed n)).cycle (Config.freeKeys n) (Config.freeRnd n)

/-- The next event of the host: the first of the script, or the free host where the script has run out. -/
def State.nextEvent (s : State) : Outcome :=
  match s.io.events with
  | e :: rest => { s with io := { s.io with events := rest } }.handle e
  | [] => s.freeHost

/-- `s` with the instruction word `w` where the next step fetches: a program is loaded (phase `RUN`), the word's two
bytes stand at `PC`, and the host's next event is a `Step` with the inputs that stand in `io`. A `PC` from which
nothing can be fetched (R68) is first put at `PROG_BASE`. -/
def State.placeWord (s : State) (w : Word) : State :=
  let pc := if s.fetchable then s.pc else BitVec.ofNat 16 Config.progBase
  { s with
    pc := pc
    phase := .run
    mem := s.mem.writeBlock pc.toNat [w.hiByte, w.loByte]
    io := { s.io with events := .step s.io.keys s.io.rnd :: s.io.events } }

end Sys2Proof.Machine
end

