-- ==== Sys2Proof/Machine/Step.lean ====
section
/-! DEFINITION. One step of the machine: the next event of the host (spec/10_state.md R11, R20, R26). -/

namespace Sys2Proof.Machine

/-- One event: `Reset`, `Load`, `Step` or `TimerUpdate`, the next of the host's script; the script run out, a free
amount of time and a `Step` with free inputs (notes/assumptions 1 and 2). -/
def step (s : State) : Host.Outcome State Fault Refusal := s.nextEvent

/-- `s` with the instruction of the table's word stored where the very next step fetches it (`State.placeWord`). -/
def State.withFetchWord (s : State) (nbits w : Nat) : State := s.placeWord (tableWord nbits w)

end Sys2Proof.Machine
end

