-- ==== Sys2Proof/Machine/Outputs.lean ====
section
/-! DEFINITION. What the host may read between events (spec/10_state.md R25): the pixel buffer, `sound_active`, the
status block with its numeric codes (R42 to R45, R230). No instruction and no event reads any of these. -/

namespace Sys2Proof.Machine

/-- `PHASE` as the host reads it, 2 bits; 3 is never produced (R42). -/
def Phase.code : Phase → BitVec 2
  | .idle => 0
  | .run => 1
  | .halt => 2

/-- `CAUSE` as the host reads it, 3 bits (R43, R230). -/
def Cause.code : Cause → BitVec 3
  | .none => 0
  | .programLoadOverflow => 1
  | .stackOverflow => 2
  | .outOfBoundsFetch => 5
  | .memoryOutOfBounds => 6

/-- `sound_active`: 1 when `ST != 0`, 0 when `ST = 0` (R25 (b)). -/
def State.soundActive (s : State) : Bool := s.st != 0

/-- The display read port: the cell at linear index `64*y + x`, row-major, as a byte `0x00` or `0x01`; an index of
2048 or more names no cell (R25 (a), R38, R178). -/
def State.displayByte (s : State) (index : Nat) : Option Byte :=
  if index < 2048 then
    some (if s.fb.pixel (Fin.ofNat 64 (index % 64)) (Fin.ofNat 32 (index / 64)) then 1 else 0)
  else none

/-- The status block (R42 to R45). -/
structure StatusBlock where
  phase : BitVec 2
  cause : BitVec 3
  faultPc : Word
  faultWord : Word
  diagUnimpl : Bool
  diagUnderflow : Bool
  diagPc : Word
  diagWord : Word
  deriving DecidableEq, Repr

/-- The status block of a state (R25 (c)). -/
def State.statusBlock (s : State) : StatusBlock where
  phase := s.phase.code
  cause := s.cause.code
  faultPc := s.faultPc
  faultWord := s.faultWord
  diagUnimpl := s.diagUnimpl
  diagUnderflow := s.diagUnderflow
  diagPc := s.diagPc
  diagWord := s.diagWord

end Sys2Proof.Machine
end

