-- ==== Sys2Proof/Safety.lean ====
section
/-! DEFINITION. The terms in which claims speak of runs and of single steps: what counts as a clean run, the
invariant of spec/10_state.md R48, and which pieces of state a step may change. -/

namespace Sys2Proof.Machine

/-! ## Runs -/

/-- A halted CORE: "a model should treat `PHASE = HALT` as a fault outcome, never as normal termination" (R242). -/
def State.faulted (s : State) : Bool := s.phase == .halt

/-- A program "ran cleanly": no diagnostic was raised and the CORE is not halted (R45). -/
def State.ranCleanly (s : State) : Bool := !s.diagUnimpl && !s.diagUnderflow && !s.faulted

/-- A run "has ended normally": `PHASE = RUN` and the instruction at `PC` is a jump to itself (R288). -/
def State.endedNormally (s : State) : Prop :=
  s.phase = .run ∧ s.fetchable = true ∧ ∃ nnn, decode s.fetchWord = .instr (.jp nnn) ∧ s.pc = zext16 nnn

/-! ## The invariant -/

/-- What holds in every reachable state (R36, R42 to R44, R48), with the live return addresses bounded (R120, R122),
from which the bound on `PC` of R48 (e) follows. DESIGN CHOICE (notes/assumptions 5): the canonical form of memory, the
clause `memory`, is the model's own, no rule of the spec. -/
structure State.Inv (s : State) : Prop where
  memory : s.mem.wf
  fracRange : 0 ≤ s.frac ∧ s.frac < 1
  fracIdle : s.dt = 0 → s.st = 0 → s.frac = 0
  causeHalt : s.cause ≠ .none ↔ s.phase = .halt
  faultClear : s.phase ≠ .halt → s.faultPc = 0 ∧ s.faultWord = 0
  pcBound : s.phase = .run → s.pc.toNat ≤ 0x10FE
  stackBound : ∀ k : Fin 16, k.val < s.sp.val → s.stack[k].toNat ≤ 0x1000
  idleReset : s.phase = .idle → s = { State.reset with io := s.io }

/-! ## What a step may change -/

/-- The pieces of state, as claims about frames name them. -/
inductive Field where
  /-- V0 to VF -/
  | v
  | i
  | pc
  | sp
  | stack
  | dt
  | st
  | frac
  /-- every byte of memory -/
  | mem
  | fb
  /-- `PHASE`, `CAUSE`, `FAULT_PC`, `FAULT_WORD` -/
  | fault
  /-- `DIAG_UNIMPL`, `DIAG_UNDERFLOW`, `DIAG_PC`, `DIAG_WORD` -/
  | diag
  /-- the result of the last `Step` or `Load` -/
  | result
  /-- the inputs of the current `Step` and the host's events still to come -/
  | inputs
  deriving DecidableEq, Repr

/-- One piece of state is the same in `s` and `t`. Memory is compared byte by byte, through the read of one byte. -/
def Unchanged (s t : State) : Field → Prop
  | .v => ∀ z : Reg, t.getV z = s.getV z
  | .i => t.i = s.i
  | .pc => t.pc = s.pc
  | .sp => t.sp = s.sp
  | .stack => t.stack = s.stack
  | .dt => t.dt = s.dt
  | .st => t.st = s.st
  | .frac => t.frac = s.frac
  | .mem => ∀ a : Nat, t.mem.read a = s.mem.read a
  | .fb => ∀ (x : Fin 64) (y : Fin 32), t.fb.pixel x y = s.fb.pixel x y
  | .fault => t.phase = s.phase ∧ t.cause = s.cause ∧ t.faultPc = s.faultPc ∧ t.faultWord = s.faultWord
  | .diag => t.diagUnimpl = s.diagUnimpl ∧ t.diagUnderflow = s.diagUnderflow ∧ t.diagPc = s.diagPc ∧
      t.diagWord = s.diagWord
  | .result => t.io.result = s.io.result
  | .inputs => t.io.keys = s.io.keys ∧ t.io.rnd = s.io.rnd ∧ t.io.events = s.io.events ∧ t.io.drawn = s.io.drawn

/-- Every piece of state but the listed ones is the same in `s` and `t`. -/
def OnlyChanges (fs : List Field) (s t : State) : Prop := ∀ f, f ∉ fs → Unchanged s t f

/-- Every general register but the listed ones is the same in `s` and `t`. -/
def RegsKept (xs : List Reg) (s t : State) : Prop := ∀ z, z ∉ xs → t.getV z = s.getV z

/-- Every byte of memory outside the `len` bytes from `a` is the same in `s` and `t`. -/
def BytesKept (a len : Nat) (s t : State) : Prop :=
  ∀ b, ¬(a ≤ b ∧ b < a + len) → t.mem.read b = s.mem.read b

/-- `t` is `s` after the fatal condition `c` of the instruction word `w`, raised in execute (R44, R240): `PC` has
been advanced before, nothing else is changed, and the status block names the instruction. -/
def HaltedBy (c : Cause) (w : Word) (s t : State) : Prop :=
  t.phase = .halt ∧ t.cause = c ∧ t.faultPc = s.pc - 2 ∧ t.faultWord = w ∧
  t.io.result = some (.fatal c (some (s.pc - 2)) (some w)) ∧ OnlyChanges [.fault, .result] s t

/-- The pixel in column `px`, row `py` is one that the sprite of `n` rows at `I`, drawn at `(V[x], V[y])`, toggles: a
set bit of sprite row `r`, column `c` lands on it, both coordinates reduced modulo the screen (R176, R177). -/
def SpriteCovers (s : State) (x y : Reg) (n : Nat) (px : Fin 64) (py : Fin 32) : Prop :=
  ∃ r c, r < n ∧ c < 8 ∧ (s.mem.read (s.i.toNat + r)).getLsbD (7 - c) = true ∧
    px.val = ((s.getV x).toNat + c) % 64 ∧ py.val = ((s.getV y).toNat + r) % 32

/-- Which pieces of state an instruction may change (R31, R32, R34, R35, R38, R71, R97, R230). -/
def mayChange : Instr → List Field
  | .cls => [.fb]
  | .ret => [.pc, .sp, .diag, .result]
  | .jp _ | .jpV0 _ => [.pc]
  | .call _ => [.pc, .sp, .stack, .fault, .result]
  | .seImm _ _ | .sneImm _ _ | .seReg _ _ | .sneReg _ _ | .skp _ | .sknp _ => [.pc]
  | .ldImm _ _ | .addImm _ _ | .rnd _ _ | .ldVxDt _ => [.v]
  | .ldReg _ _ | .orReg _ _ | .andReg _ _ | .xorReg _ _ => [.v]
  | .addReg _ _ | .subReg _ _ | .shrReg _ _ | .subnReg _ _ | .shlReg _ _ => [.v]
  | .ldI _ | .addI _ | .ldF _ => [.i]
  | .drw _ _ _ => [.v, .fb, .fault, .result]
  | .ldVxK _ => [.v, .pc]
  | .ldDtVx _ => [.dt, .frac]
  | .ldStVx _ => [.st, .frac]
  | .ldB _ => [.mem, .fault, .result]
  | .storeRegs _ => [.mem, .i, .fault, .result]
  | .loadRegs _ => [.v, .i, .fault, .result]

/-- Which general registers an instruction may change: its destination (R96 and the instruction rules, `V[0]` to `V[x]`
for `FX65`: R209), and VF for the six instructions that write a flag (R31). -/
def mayWriteReg : Instr → Reg → Bool
  | .ldImm x _, z | .addImm x _, z | .rnd x _, z | .ldVxDt x, z | .ldVxK x, z => z == x
  | .ldReg x _, z | .orReg x _, z | .andReg x _, z | .xorReg x _, z => z == x
  | .addReg x _, z | .subReg x _, z | .shrReg x _, z | .subnReg x _, z | .shlReg x _, z => z == x || z == Reg.vf
  | .drw _ _ _, z => z == Reg.vf
  | .loadRegs x, z => decide (z ≤ x)
  | .cls, _ | .ret, _ | .jp _, _ | .call _, _ | .jpV0 _, _ => false
  | .seImm _ _, _ | .sneImm _ _, _ | .seReg _ _, _ | .sneReg _ _, _ | .skp _, _ | .sknp _, _ => false
  | .ldI _, _ | .addI _, _ | .ldF _, _ | .ldDtVx _, _ | .ldStVx _, _ | .ldB _, _ | .storeRegs _, _ => false

end Sys2Proof.Machine
end

