-- ==== Sys2Proof/Certificates/Slice0/Obligations.lean ====
section
/-! DEFINITION. The statements for the provers, from the numbered rules of spec/. `s` is a state in which fetch has
already advanced `PC` where a statement speaks of `exec` (R70): the instruction's own address is `s.pc - 2`. -/

open Sys2Proof Sys2Proof.Machine

/-! ## Encoding (spec/30_encoding.md) -/

/-- Decoding the word of any instruction, with every operand at every value, gives the instruction back (R91 to R93,
R95, R96). -/
def Obligations.DecodeOfEncode : Prop := ∀ i : Instr, decode (encode i) = .instr i

/-- Encoding what any word decodes to gives the word back: one word for each instruction, and UNKNOWN keeps its word
(R95, R99, R220). -/
def Obligations.EncodeOfDecode : Prop := ∀ w : Word, (decode w).word = w

/-- A word decodes to UNKNOWN exactly when no row of the opcode map matches it, and to an instruction exactly when one
does (R95, R98). -/
def Obligations.UnknownIffNoRowMatches : Prop :=
  ∀ w : Word, (decode w = .unknown w ↔ ∀ r ∈ opcodeRows, w &&& r.mask ≠ r.pattern) ∧
    ((∃ i, decode w = .instr i) ↔ ∃ r ∈ opcodeRows, w &&& r.mask = r.pattern)

/-- The patterns of the opcode map are pairwise disjoint: no word matches two rows (R99, which the spec marks as
derived). -/
def Obligations.OpcodeRowsDisjoint : Prop :=
  ∀ w : Word, ∀ r ∈ opcodeRows, ∀ q ∈ opcodeRows,
    w &&& r.mask = r.pattern → w &&& q.mask = q.pattern → r = q

/-- Words written out from the decode table of R96 and the source's examples decode to what they stand for. -/
def Obligations.DecodeExamples : Prop :=
  decode 0x00E0 = .instr .cls ∧ decode 0x00EE = .instr .ret ∧ decode 0x1FFF = .instr (.jp 0xFFF) ∧
  decode 0x6502 = .instr (.ldImm 5 2) ∧ decode 0x70FF = .instr (.addImm 0 0xFF) ∧
  decode 0xAFFF = .instr (.ldI 0xFFF) ∧ decode 0xD123 = .instr (.drw 1 2 3) ∧
  decode 0x8ABE = .instr (.shlReg 0xA 0xB) ∧ decode 0xE1A1 = .instr (.sknp 1) ∧
  decode 0xF165 = .instr (.loadRegs 1) ∧ decode 0x5AB1 = .unknown 0x5AB1

/-! ## The engine cycle (spec/20_memory.md) -/

/-- A `Step` in phase `RUN` whose bytes at `PC` decode to the instruction `i` is `exec i` with `PC` advanced by 2
(R65, R68, R70). The rest of the state that `exec` starts from is the model's own choice (notes/assumptions 1 and 3):
the event is taken off the script, the inputs stand in `io`, and the result is `Ok` before execute. -/
def Obligations.StepRunsDecodedInstruction : Prop :=
  ∀ (s : State) (i : Instr) (keys : BitVec 16) (rnd : Byte) (rest : List Event),
    s.io.events = .step keys rnd :: rest → s.phase = .run → s.pc.toNat ≤ 0xFFE →
    decode (wordOfBytes (s.mem.read s.pc.toNat) (s.mem.read (s.pc.toNat + 1))) = .instr i →
    step s = exec i
      { s with
        pc := s.pc + 2
        io := { s.io with events := rest, keys := keys, rnd := rnd, result := some .ok } }

/-- Any instruction, stored as its word where the next step fetches (`State.withFetchWord`, the model's way to place
an instruction, notes/assumptions 4), is what the next step runs: its two bytes stand in memory, high byte first,
every other byte is as before, and the step is `exec` of exactly that instruction with every operand as it was. Fetch
and decode are R65, R70, R95; `io` is the model's (notes/assumptions 3). -/
def Obligations.PlacedInstructionRuns : Prop :=
  ∀ (i : Instr) (s : State), ∃ t, t = s.withFetchWord 16 (encode i).toNat ∧
    t.pc = (if s.pc.toNat ≤ 0xFFE then s.pc else 0x200) ∧ t.phase = .run ∧
    (t.mem.read t.pc.toNat).toNat = (encode i).toNat / 256 ∧
    (t.mem.read (t.pc.toNat + 1)).toNat = (encode i).toNat % 256 ∧
    BytesKept t.pc.toNat 2 s t ∧
    step t = exec i { t with pc := t.pc + 2, io := { s.io with result := some .ok } }

/-- Past the end of the script (the model's choice, notes/assumptions 2) a step in phase `RUN` is a `TimerUpdate` of a
free amount of time, then the `Step` of the decoded instruction with free inputs. -/
def Obligations.StepOfFreeHost : Prop :=
  ∀ (s : State) (i : Instr), s.io.events = [] → s.phase = .run → s.pc.toNat ≤ 0xFFE →
    decode (wordOfBytes (s.mem.read s.pc.toNat) (s.mem.read (s.pc.toNat + 1))) = .instr i →
    ∃ t : State, t = s.timerUpdate (Config.freeElapsed s.io.drawn) ∧
      OnlyChanges [.dt, .st, .frac] s t ∧
      step s = exec i
        { t with
          pc := s.pc + 2
          io :=
            { events := []
              drawn := s.io.drawn + 1
              keys := Config.freeKeys s.io.drawn
              rnd := Config.freeRnd s.io.drawn
              result := some .ok } }

/-- Fetch is big-endian: the word is `256 * MEM[PC] + MEM[PC+1]` (R65). -/
def Obligations.FetchIsBigEndian : Prop :=
  ∀ s : State, s.fetchWord.toNat =
    256 * (s.mem.read s.pc.toNat).toNat + (s.mem.read (s.pc.toNat + 1)).toNat

/-- A `Step` on a word that decodes to UNKNOWN advances `PC` and raises the sticky diagnostic; every other piece of
state is as before and the phase stays `RUN` (R220, R234, R241; the spec's decision D8). The script and `io` are the
model's (notes/assumptions 1, 3). -/
def Obligations.StepOnUnknownWord : Prop :=
  ∀ (s : State) (w : Word) (keys : BitVec 16) (rnd : Byte) (rest : List Event),
    s.io.events = .step keys rnd :: rest → s.phase = .run → s.pc.toNat ≤ 0xFFE →
    decode (wordOfBytes (s.mem.read s.pc.toNat) (s.mem.read (s.pc.toNat + 1))) = .unknown w →
    ∃ t, step s = .next t ∧ t.pc.toNat = s.pc.toNat + 2 ∧
      t.diagUnimpl = true ∧ t.diagUnderflow = s.diagUnderflow ∧ t.diagPc = s.pc ∧ t.diagWord = w ∧
      t.io.result = some (.diagnostic .unimplementedOpcode s.pc w) ∧ t.phase = .run ∧ t.io.events = rest ∧
      OnlyChanges [.pc, .diag, .result, .inputs] s t

/-- A `Step` with `PC > 0xFFE` raises the fatal `OutOfBoundsFetch`: `PC` stays, the status block records it, nothing
else of the CORE changes (R68, R235, R240; the state left is the spec's decision D7). The script and `io` are the
model's (notes/assumptions 1, 3). -/
def Obligations.StepOutOfBoundsFetch : Prop :=
  ∀ (s : State) (keys : BitVec 16) (rnd : Byte) (rest : List Event),
    s.io.events = .step keys rnd :: rest → s.phase = .run → 0xFFE < s.pc.toNat →
    ∃ t, step s = .next t ∧ t.phase = .halt ∧ t.cause = .outOfBoundsFetch ∧ t.faultPc = s.pc ∧
      t.faultWord = 0 ∧ t.io.result = some (.fatal .outOfBoundsFetch (some s.pc) none) ∧
      OnlyChanges [.fault, .result, .inputs] s t

/-- An event that the phase does not accept changes no state and returns `Refused`: a `Step` in `IDLE` or `HALT`, a
`Load` in `RUN` or `HALT` (R23, R242, R278; the spec's decision D6). The script and `io` are the model's
(notes/assumptions 1, 3). -/
def Obligations.RefusedEventsChangeNothing : Prop :=
  ∀ (s : State) (e : Event) (rest : List Event), s.io.events = e :: rest →
    ((∃ keys rnd, e = .step keys rnd) ∧ s.phase ≠ .run ∨ (∃ bytes, e = .load bytes) ∧ s.phase ≠ .idle) →
    step s = .next { s with io := { s.io with events := rest, result := some .refused } }

/-- Every event and every instruction answers a next state: no step is stuck, faults or is refused. That conditions
and refused events are next states is the model's choice (notes/assumptions 9, DEDUCED from what R23, R46, R240 and
R241 say they leave); that R242 asks a model to treat `HALT` as a fault outcome is kept as the predicate
`State.faulted`. -/
def Obligations.EveryStepAnswersNext : Prop :=
  (∀ s : State, ∃ t, step s = .next t) ∧ ∀ (i : Instr) (s : State), ∃ t, exec i s = .next t

/-! ## Control flow (spec/40_flow.md) -/

/-- `1NNN`: `PC <- nnn`, any address, nothing else changed (R121). -/
def Obligations.JumpSetsPc : Prop :=
  ∀ (nnn : BitVec 12) (s : State), decode (packNNN 0x1 nnn) = .instr (.jp nnn) ∧
    ∃ t, exec (.jp nnn) s = .next t ∧ t.pc.toNat = nnn.toNat ∧ OnlyChanges [.pc] s t

/-- `2NNN` with a free entry: the advanced `PC` is pushed and `PC <- nnn`; on a full stack `StackOverflow`, with the
stack untouched (R122, R232, R240; the spec's decisions D3 and D7). -/
def Obligations.CallPushesOrOverflows : Prop :=
  ∀ (nnn : BitVec 12) (s : State), decode (packNNN 0x2 nnn) = .instr (.call nnn) ∧
    (∀ h : s.sp.val < 16, ∃ t, exec (.call nnn) s = .next t ∧
      t.stack[s.sp.val] = s.pc ∧ (∀ k : Fin 16, k.val ≠ s.sp.val → t.stack[k] = s.stack[k]) ∧
      t.sp.val = s.sp.val + 1 ∧ t.pc.toNat = nnn.toNat ∧ OnlyChanges [.pc, .sp, .stack] s t) ∧
    (s.sp.val = 16 → ∃ t, exec (.call nnn) s = .next t ∧ HaltedBy .stackOverflow (packNNN 0x2 nnn) s t)

/-- `00EE`: with a live entry the top is popped into `PC` and not cleared; on an empty stack nothing happens but the
diagnostic `StackUnderflow` (R120, R233, R241; the spec's decision D9). -/
def Obligations.ReturnPopsOrUnderflows : Prop :=
  decode 0x00EE = .instr .ret ∧ ∀ s : State,
    (∀ h : 0 < s.sp.val, ∃ t, exec .ret s = .next t ∧
      t.sp.val = s.sp.val - 1 ∧ t.pc = s.stack[s.sp.val - 1] ∧ OnlyChanges [.pc, .sp] s t) ∧
    (s.sp.val = 0 → ∃ t, exec .ret s = .next t ∧
      t.diagUnderflow = true ∧ t.diagUnimpl = s.diagUnimpl ∧ t.diagPc = s.pc - 2 ∧ t.diagWord = 0x00EE ∧
      t.io.result = some (.diagnostic .stackUnderflow (s.pc - 2) 0x00EE) ∧ OnlyChanges [.diag, .result] s t)

/-- `BNNN`: `PC <- nnn + V0`, the sum not reduced modulo 4096, the offset always V0 (R123; the spec's decision D20).
-/
def Obligations.JumpWithOffsetSetsPc : Prop :=
  ∀ (nnn : BitVec 12) (s : State), decode (packNNN 0xB nnn) = .instr (.jpV0 nnn) ∧
    ∃ t, exec (.jpV0 nnn) s = .next t ∧ t.pc.toNat = nnn.toNat + (s.getV 0).toNat ∧ OnlyChanges [.pc] s t

/-- A `RET` right after a `CALL` returns to the instruction after the call, with the cursor and every entry that was
live before the call as they were (R34, R120, R122). -/
def Obligations.ReturnUndoesCall : Prop :=
  ∀ (nnn : BitVec 12) (s : State), s.sp.val < 16 →
    ∃ t u, exec (.call nnn) s = .next t ∧ exec .ret t = .next u ∧ u.pc = s.pc ∧ u.sp = s.sp ∧
      (∀ k : Fin 16, k.val < s.sp.val → u.stack[k] = s.stack[k]) ∧ OnlyChanges [.stack] s u

/-! ## Skips (spec/41_skip.md) -/

/-- `3XNN`: skip if `V[x] = nn` (R130). -/
def Obligations.SkipIfEqualImmediate : Prop :=
  ∀ (x : Reg) (nn : Byte) (s : State), decode (packXNN 0x3 x nn) = .instr (.seImm x nn) ∧
    ∃ t, exec (.seImm x nn) s = .next t ∧ t.pc = (if s.getV x = nn then s.pc + 2 else s.pc) ∧
      OnlyChanges [.pc] s t

/-- `4XNN`: skip if `V[x] != nn` (R131). -/
def Obligations.SkipIfDiffersImmediate : Prop :=
  ∀ (x : Reg) (nn : Byte) (s : State), decode (packXNN 0x4 x nn) = .instr (.sneImm x nn) ∧
    ∃ t, exec (.sneImm x nn) s = .next t ∧ t.pc = (if s.getV x = nn then s.pc else s.pc + 2) ∧
      OnlyChanges [.pc] s t

/-- `5XY0` and `9XY0`: skip if the registers are equal, skip if they differ (R132, R133). That the words `5XYN` and
`9XYN` with another low nibble are UNKNOWN (R95, R98) is the spec's decision D28. -/
def Obligations.SkipOnRegisters : Prop :=
  ∀ (x y : Reg) (n : BitVec 4) (s : State),
    decode (packXYN 0x5 x y n) = (if n = 0 then .instr (.seReg x y) else .unknown (packXYN 0x5 x y n)) ∧
    decode (packXYN 0x9 x y n) = (if n = 0 then .instr (.sneReg x y) else .unknown (packXYN 0x9 x y n)) ∧
    (∃ t, exec (.seReg x y) s = .next t ∧ t.pc = (if s.getV x = s.getV y then s.pc + 2 else s.pc) ∧
      OnlyChanges [.pc] s t) ∧
    (∃ t, exec (.sneReg x y) s = .next t ∧ t.pc = (if s.getV x = s.getV y then s.pc else s.pc + 2) ∧
      OnlyChanges [.pc] s t)

/-! ## Immediates (spec/42_immediate.md) -/

/-- `6XNN`: `V[x] <- nn`, also for `x = 0xF` (R140). -/
def Obligations.LoadImmediate : Prop :=
  ∀ (x : Reg) (nn : Byte) (s : State), decode (packXNN 0x6 x nn) = .instr (.ldImm x nn) ∧
    ∃ t, exec (.ldImm x nn) s = .next t ∧ t.getV x = nn ∧ RegsKept [x] s t ∧ OnlyChanges [.v] s t

/-- `7XNN`: `V[x] <- (V[x] + nn) mod 256`; VF is not written unless it is `x` (R141). -/
def Obligations.AddImmediateWraps : Prop :=
  ∀ (x : Reg) (nn : Byte) (s : State), decode (packXNN 0x7 x nn) = .instr (.addImm x nn) ∧
    ∃ t, exec (.addImm x nn) s = .next t ∧
      (t.getV x).toNat = ((s.getV x).toNat + nn.toNat) % 256 ∧ RegsKept [x] s t ∧ OnlyChanges [.v] s t

/-- `ANNN`: `I <- nnn`, bits 15:12 become 0 (R142). -/
def Obligations.LoadIndexImmediate : Prop :=
  ∀ (nnn : BitVec 12) (s : State), decode (packNNN 0xA nnn) = .instr (.ldI nnn) ∧
    ∃ t, exec (.ldI nnn) s = .next t ∧ t.i.toNat = nnn.toNat ∧ OnlyChanges [.i] s t

/-! ## ALU (spec/43_alu.md) -/

/-- `8XY0`: `V[x] <- V[y]`, also for `x = 0xF` (R151). -/
def Obligations.CopyRegister : Prop :=
  ∀ (x y : Reg) (s : State), decode (packXYN 0x8 x y 0x0) = .instr (.ldReg x y) ∧
    ∃ t, exec (.ldReg x y) s = .next t ∧ t.getV x = s.getV y ∧ RegsKept [x] s t ∧ OnlyChanges [.v] s t

/-- `8XY1`, `8XY2`, `8XY3`: each bit of `V[x]` is the OR, AND, XOR of the operands' bits; VF is not written unless it
is `x` (R152, R153, R154; the spec's decision D18). -/
def Obligations.BitwiseOperations : Prop :=
  ∀ (x y : Reg) (s : State),
    decode (packXYN 0x8 x y 0x1) = .instr (.orReg x y) ∧ decode (packXYN 0x8 x y 0x2) = .instr (.andReg x y) ∧
    decode (packXYN 0x8 x y 0x3) = .instr (.xorReg x y) ∧
    (∃ t, exec (.orReg x y) s = .next t ∧
      (∀ k, (t.getV x).getLsbD k = ((s.getV x).getLsbD k || (s.getV y).getLsbD k)) ∧
      RegsKept [x] s t ∧ OnlyChanges [.v] s t) ∧
    (∃ t, exec (.andReg x y) s = .next t ∧
      (∀ k, (t.getV x).getLsbD k = ((s.getV x).getLsbD k && (s.getV y).getLsbD k)) ∧
      RegsKept [x] s t ∧ OnlyChanges [.v] s t) ∧
    (∃ t, exec (.xorReg x y) s = .next t ∧
      (∀ k, (t.getV x).getLsbD k = ((s.getV x).getLsbD k ^^ (s.getV y).getLsbD k)) ∧
      RegsKept [x] s t ∧ OnlyChanges [.v] s t)

/-- `8XY4`: `V[x]` is the sum modulo 256 and VF the carry out of bit 7 (R155); that VF is written last, so that with
`x = 0xF` the sum is lost and VF is the carry, is the spec's decision D19 (R161). -/
def Obligations.AddSetsCarry : Prop :=
  ∀ (x y : Reg) (s : State), decode (packXYN 0x8 x y 0x4) = .instr (.addReg x y) ∧
    ∃ t, exec (.addReg x y) s = .next t ∧
      (x ≠ Reg.vf → (t.getV x).toNat = ((s.getV x).toNat + (s.getV y).toNat) % 256) ∧
      (t.getV Reg.vf).toNat = (if (s.getV x).toNat + (s.getV y).toNat > 255 then 1 else 0) ∧
      RegsKept [x, Reg.vf] s t ∧ OnlyChanges [.v] s t

/-- `8XY5` and `8XY7`: `V[x]` is the difference modulo 256 and VF, written last, 1 when there is no borrow, also at
equality (R156, R158, R161; the spec's decision D19). -/
def Obligations.SubtractSetsNotBorrow : Prop :=
  ∀ (x y : Reg) (s : State),
    decode (packXYN 0x8 x y 0x5) = .instr (.subReg x y) ∧ decode (packXYN 0x8 x y 0x7) = .instr (.subnReg x y) ∧
    (∃ t, exec (.subReg x y) s = .next t ∧
      (x ≠ Reg.vf → ((t.getV x).toNat : Int) = ((s.getV x).toNat - (s.getV y).toNat : Int) % 256) ∧
      (t.getV Reg.vf).toNat = (if (s.getV x).toNat ≥ (s.getV y).toNat then 1 else 0) ∧
      RegsKept [x, Reg.vf] s t ∧ OnlyChanges [.v] s t) ∧
    (∃ t, exec (.subnReg x y) s = .next t ∧
      (x ≠ Reg.vf → ((t.getV x).toNat : Int) = ((s.getV y).toNat - (s.getV x).toNat : Int) % 256) ∧
      (t.getV Reg.vf).toNat = (if (s.getV y).toNat ≥ (s.getV x).toNat then 1 else 0) ∧
      RegsKept [x, Reg.vf] s t ∧ OnlyChanges [.v] s t)

/-- `8XY6` and `8XYE`: `V[x]` is VY shifted by one and VF, written last, the bit shifted out (R157, R159, R161; the
spec's decision D16). -/
def Obligations.ShiftsMoveOneBit : Prop :=
  ∀ (x y : Reg) (s : State),
    decode (packXYN 0x8 x y 0x6) = .instr (.shrReg x y) ∧ decode (packXYN 0x8 x y 0xE) = .instr (.shlReg x y) ∧
    (∃ t, exec (.shrReg x y) s = .next t ∧
      (x ≠ Reg.vf → (t.getV x).toNat = (s.getV y).toNat / 2) ∧
      (t.getV Reg.vf).toNat = (s.getV y).toNat % 2 ∧ RegsKept [x, Reg.vf] s t ∧ OnlyChanges [.v] s t) ∧
    (∃ t, exec (.shlReg x y) s = .next t ∧
      (x ≠ Reg.vf → (t.getV x).toNat = 2 * (s.getV y).toNat % 256) ∧
      (t.getV Reg.vf).toNat = (s.getV y).toNat / 128 ∧ RegsKept [x, Reg.vf] s t ∧ OnlyChanges [.v] s t)

/-! ## Random and display (spec/44_random.md, spec/45_display.md) -/

/-- `CXNN`: `V[x] <- RND & nn` for whatever value `RND` has; bits outside the mask are 0 (R170; decision D24). -/
def Obligations.RandomUnderMask : Prop :=
  ∀ (x : Reg) (nn : Byte) (s : State), decode (packXNN 0xC x nn) = .instr (.rnd x nn) ∧
    ∃ t, exec (.rnd x nn) s = .next t ∧
      (∀ k, (t.getV x).getLsbD k = (s.io.rnd.getLsbD k && nn.getLsbD k)) ∧
      RegsKept [x] s t ∧ OnlyChanges [.v] s t

/-- `00E0`: every cell becomes 0, nothing else changes (R175). -/
def Obligations.ClearScreen : Prop :=
  decode 0x00E0 = .instr .cls ∧ ∀ s : State, ∃ t, exec .cls s = .next t ∧
    (∀ (px : Fin 64) (py : Fin 32), t.fb.pixel px py = false) ∧ OnlyChanges [.fb] s t

/-- `DXYN` with its sprite bytes in memory: exactly the cells on which a set sprite bit lands are toggled, with
wraparound, and VF is 1 when one of them was on, else 0; also for height 0 (R176, R177). -/
def Obligations.DrawTogglesCoveredPixels : Prop :=
  ∀ (x y : Reg) (n : BitVec 4) (s : State), decode (packXYN 0xD x y n) = .instr (.drw x y n) ∧
    ((n.toNat = 0 ∨ s.i.toNat + n.toNat - 1 ≤ 0xFFF) → ∃ t, exec (.drw x y n) s = .next t ∧
      (∀ px py, SpriteCovers s x y n.toNat px py → t.fb.pixel px py = !s.fb.pixel px py) ∧
      (∀ px py, ¬SpriteCovers s x y n.toNat px py → t.fb.pixel px py = s.fb.pixel px py) ∧
      ((∃ px py, SpriteCovers s x y n.toNat px py ∧ s.fb.pixel px py = true) → t.getV Reg.vf = 1) ∧
      ((¬∃ px py, SpriteCovers s x y n.toNat px py ∧ s.fb.pixel px py = true) → t.getV Reg.vf = 0) ∧
      RegsKept [Reg.vf] s t ∧ OnlyChanges [.v, .fb] s t)

/-- Drawing the same sprite twice at the same location restores the screen, and the second draw sets VF when the first
one found every covered cell off and covered at least one (the source's testable property in R176). -/
def Obligations.DrawTwiceRestoresScreen : Prop :=
  ∀ (x y : Reg) (n : BitVec 4) (s : State), x ≠ Reg.vf → y ≠ Reg.vf →
    (n.toNat = 0 ∨ s.i.toNat + n.toNat - 1 ≤ 0xFFF) →
    ∃ t u, exec (.drw x y n) s = .next t ∧ exec (.drw x y n) t = .next u ∧
      (∀ px py, u.fb.pixel px py = s.fb.pixel px py) ∧
      (t.getV Reg.vf = 0 → (∃ px py, SpriteCovers s x y n.toNat px py) → u.getV Reg.vf = 1)

/-- The four instructions that access data at `I`: when the highest address exceeds `0xFFF` they raise
`MemoryOutOfBounds` with no effect, and the sum is not wrapped (R72, R210, R236, R240; decision D10). -/
def Obligations.DataAccessOutOfBoundsIsFatal : Prop :=
  ∀ s : State,
    (∀ (x y : Reg) (n : BitVec 4), 0 < n.toNat → 0xFFF < s.i.toNat + n.toNat - 1 →
      ∃ t, exec (.drw x y n) s = .next t ∧ HaltedBy .memoryOutOfBounds (packXYN 0xD x y n) s t) ∧
    (∀ x : Reg, 0xFFF < s.i.toNat + 2 →
      ∃ t, exec (.ldB x) s = .next t ∧ HaltedBy .memoryOutOfBounds (packXNN 0xF x 0x33) s t) ∧
    (∀ x : Reg, 0xFFF < s.i.toNat + x.val →
      ∃ t, exec (.storeRegs x) s = .next t ∧ HaltedBy .memoryOutOfBounds (packXNN 0xF x 0x55) s t) ∧
    (∀ x : Reg, 0xFFF < s.i.toNat + x.val →
      ∃ t, exec (.loadRegs x) s = .next t ∧ HaltedBy .memoryOutOfBounds (packXNN 0xF x 0x65) s t)

/-! ## Keypad (spec/46_keypad.md) -/

/-- `EX9E` and `EXA1`: skip if the key numbered by bits 3:0 of `V[x]` is pressed, skip if it is not (R185, R186, R188;
decision D22). -/
def Obligations.SkipOnKey : Prop :=
  ∀ (x : Reg) (s : State),
    decode (packXNN 0xE x 0x9E) = .instr (.skp x) ∧ decode (packXNN 0xE x 0xA1) = .instr (.sknp x) ∧
    (∃ t, exec (.skp x) s = .next t ∧
      t.pc = (if s.io.keys.getLsbD ((s.getV x).toNat % 16) then s.pc + 2 else s.pc) ∧ OnlyChanges [.pc] s t) ∧
    (∃ t, exec (.sknp x) s = .next t ∧
      t.pc = (if s.io.keys.getLsbD ((s.getV x).toNat % 16) then s.pc else s.pc + 2) ∧ OnlyChanges [.pc] s t)

/-- `FX0A`: with keys down the smallest goes to `V[x]`; with none down only `PC` goes back, to the instruction itself
(R187; decision D23). -/
def Obligations.WaitForKey : Prop :=
  ∀ (x : Reg) (s : State), decode (packXNN 0xF x 0x0A) = .instr (.ldVxK x) ∧
    (∀ k : Fin 16, s.io.keys.getLsbD k = true → (∀ j : Fin 16, j < k → s.io.keys.getLsbD j = false) →
      ∃ t, exec (.ldVxK x) s = .next t ∧ (t.getV x).toNat = k.val ∧ RegsKept [x] s t ∧ OnlyChanges [.v] s t) ∧
    (s.io.keys = 0 → ∃ t, exec (.ldVxK x) s = .next t ∧ t.pc = s.pc - 2 ∧ OnlyChanges [.pc] s t)

/-! ## Timers (spec/47_timer_io.md, spec/60_exceptions.md R250 to R252) -/

/-- `FX07`: `V[x] <- DT` (R195). -/
def Obligations.ReadDelayTimer : Prop :=
  ∀ (x : Reg) (s : State), decode (packXNN 0xF x 0x07) = .instr (.ldVxDt x) ∧
    ∃ t, exec (.ldVxDt x) s = .next t ∧ t.getV x = s.dt ∧ RegsKept [x] s t ∧ OnlyChanges [.v] s t

/-- `FX15` and `FX18` set a timer; the fraction is cleared exactly when both timers are zero after the write (R196,
R197; decision D25). -/
def Obligations.SetTimers : Prop :=
  ∀ (x : Reg) (s : State),
    decode (packXNN 0xF x 0x15) = .instr (.ldDtVx x) ∧ decode (packXNN 0xF x 0x18) = .instr (.ldStVx x) ∧
    (∃ t, exec (.ldDtVx x) s = .next t ∧ t.dt = s.getV x ∧
      t.frac = (if s.getV x = 0 ∧ s.st = 0 then 0 else s.frac) ∧ OnlyChanges [.dt, .frac] s t) ∧
    (∃ t, exec (.ldStVx x) s = .next t ∧ t.st = s.getV x ∧
      t.frac = (if s.dt = 0 ∧ s.getV x = 0 then 0 else s.frac) ∧ OnlyChanges [.st, .frac] s t)

/-- `TimerUpdate(e)`: with `k` the whole part of `60 e + FRAC`, each timer loses `k` counts but not below zero, the
rest is carried, and with both timers at zero nothing is carried; in every phase (R24, R250; decisions D25, D26). The
premise on `FRAC` is part of the invariant (R48 (b)). The script and `io` are the model's (notes/assumptions 1, 3).
-/
def Obligations.TimerUpdateRule : Prop :=
  ∀ (s : State) (e : Elapsed) (rest : List Event) (k : Nat) (f : Rat),
    s.io.events = .timerUpdate e :: rest → 0 ≤ s.frac →
    60 * ((e.num : Rat) / ((e.denMinusOne : Rat) + 1)) + s.frac = (k : Rat) + f → 0 ≤ f → f < 1 →
    ∃ t, step s = .next t ∧ t.dt.toNat = s.dt.toNat - min s.dt.toNat k ∧
      t.st.toNat = s.st.toNat - min s.st.toNat k ∧
      t.frac = (if s.dt.toNat ≤ k ∧ s.st.toNat ≤ k then 0 else f) ∧ t.io.events = rest ∧
      OnlyChanges [.dt, .st, .frac, .inputs] s t

/-- Two updates are the same as one with the sum of the times (R251 (c), which the spec marks as derived). The premise
on `FRAC` is part of the invariant (R48 (b)). -/
def Obligations.TimerUpdatesCompose : Prop :=
  ∀ (s : State) (d e sum : Elapsed), 0 ≤ s.frac →
    Elapsed.seconds sum = Elapsed.seconds d + Elapsed.seconds e →
    (s.timerUpdate d).timerUpdate e = s.timerUpdate sum

/-- Under an exact 60 Hz host an update of 1/60 s decrements each non-zero timer by one and leaves no fraction (R252,
which the spec marks as derived). -/
def Obligations.SixtiethOfASecondIsOneCount : Prop :=
  ∀ s : State, s.frac = 0 →
    (s.timerUpdate ⟨1, 59⟩).dt.toNat = s.dt.toNat - 1 ∧ (s.timerUpdate ⟨1, 59⟩).st.toNat = s.st.toNat - 1 ∧
    (s.timerUpdate ⟨1, 59⟩).frac = 0

/-! ## Index and memory (spec/48_index_memory.md) -/

/-- `FX1E`: `I <- (I + V[x]) mod 65536`, VF not written (R205; decision D21). -/
def Obligations.AddToIndexWraps : Prop :=
  ∀ (x : Reg) (s : State), decode (packXNN 0xF x 0x1E) = .instr (.addI x) ∧
    ∃ t, exec (.addI x) s = .next t ∧ t.i.toNat = (s.i.toNat + (s.getV x).toNat) % 65536 ∧ OnlyChanges [.i] s t

/-- `FX29`: `I <- 0x050 + 5 * V[x][3:0]` (R206; decision D22). -/
def Obligations.IndexToGlyph : Prop :=
  ∀ (x : Reg) (s : State), decode (packXNN 0xF x 0x29) = .instr (.ldF x) ∧
    ∃ t, exec (.ldF x) s = .next t ∧ t.i.toNat = 0x050 + 5 * ((s.getV x).toNat % 16) ∧ OnlyChanges [.i] s t

/-- `FX33` inside memory: the hundreds, tens and ones digit at `I`, `I+1`, `I+2`, every other byte and `I` kept
(R207). -/
def Obligations.StoreDecimalDigits : Prop :=
  ∀ (x : Reg) (s : State), decode (packXNN 0xF x 0x33) = .instr (.ldB x) ∧
    (s.i.toNat + 2 ≤ 0xFFF → ∃ t, exec (.ldB x) s = .next t ∧
      (t.mem.read s.i.toNat).toNat = (s.getV x).toNat / 100 ∧
      (t.mem.read (s.i.toNat + 1)).toNat = (s.getV x).toNat / 10 % 10 ∧
      (t.mem.read (s.i.toNat + 2)).toNat = (s.getV x).toNat % 10 ∧
      BytesKept s.i.toNat 3 s t ∧ OnlyChanges [.mem] s t)

/-- `FX55` inside memory: `V[0] .. V[x]` ascending from `I`, every other byte kept, then `I <- I + x + 1` (R208;
decision D17). -/
def Obligations.StoreRegisterBlock : Prop :=
  ∀ (x : Reg) (s : State), decode (packXNN 0xF x 0x55) = .instr (.storeRegs x) ∧
    (s.i.toNat + x.val ≤ 0xFFF → ∃ t, exec (.storeRegs x) s = .next t ∧
      (∀ k : Reg, k ≤ x → t.mem.read (s.i.toNat + k.val) = s.getV k) ∧
      BytesKept s.i.toNat (x.val + 1) s t ∧ t.i.toNat = (s.i.toNat + x.val + 1) % 65536 ∧
      OnlyChanges [.mem, .i] s t)

/-- `FX65` inside memory: `V[0] .. V[x]` from the bytes ascending from `I`, the registers above kept, then `I <- I + x
+ 1` (R209; decision D17). -/
def Obligations.LoadRegisterBlock : Prop :=
  ∀ (x : Reg) (s : State), decode (packXNN 0xF x 0x65) = .instr (.loadRegs x) ∧
    (s.i.toNat + x.val ≤ 0xFFF → ∃ t, exec (.loadRegs x) s = .next t ∧
      (∀ k : Reg, k ≤ x → t.getV k = s.mem.read (s.i.toNat + k.val)) ∧
      (∀ k : Reg, x < k → t.getV k = s.getV k) ∧ t.i.toNat = (s.i.toNat + x.val + 1) % 65536 ∧
      OnlyChanges [.v, .i] s t)

/-- A word stored by `FX55` is what a later fetch from its address sees, at once: self-modifying code (R76, which the
spec marks as derived). -/
def Obligations.StoredWordIsFetched : Prop :=
  ∀ (x : Reg) (s : State), 1 ≤ x.val → s.i.toNat + x.val ≤ 0xFFF →
    ∃ t, exec (.storeRegs x) s = .next t ∧ (t.jump s.i).fetchWord = wordOfBytes (s.getV 0) (s.getV 1)

/-- A memory in canonical form is its bytes: two that read the same at every address are the same list
(notes/assumptions 5). -/
def Obligations.CanonicalMemoryIsItsBytes : Prop :=
  ∀ m n : Memory, m.wf → n.wf → (∀ a, m.read a = n.read a) → m = n

/-! ## Reset and load (spec/70_reset_and_hazards.md) -/

/-- The state after `Reset`, field by field and memory byte by byte (R47, R61, R62, R270; the values other than
memory's are the spec's decision D4, the font's bytes come from general knowledge, notes/assumptions 6). The script
and `io` are the model's (notes/assumptions 1, 3). -/
def Obligations.StateAfterReset : Prop :=
  ∀ (s : State) (rest : List Event), s.io.events = .reset :: rest →
    ∃ t, step s = .next t ∧ t.io.events = rest ∧
      (∀ z, t.getV z = 0) ∧ t.i = 0 ∧ t.pc = 0x0200 ∧ t.sp = 0 ∧ (∀ k : Fin 16, t.stack[k] = 0) ∧
      t.dt = 0 ∧ t.st = 0 ∧ t.frac = 0 ∧ (∀ px py, t.fb.pixel px py = false) ∧
      (∀ a, a < 0x050 ∨ 0x0A0 ≤ a → t.mem.read a = 0) ∧ t.mem.readBlock 0x050 80 = font ∧
      t.phase = .idle ∧ t.cause = .none ∧ t.faultPc = 0 ∧ t.faultWord = 0 ∧
      t.diagUnimpl = false ∧ t.diagUnderflow = false ∧ t.diagPc = 0 ∧ t.diagWord = 0

/-- `Load` in `IDLE` of at most 3584 bytes: the bytes stand from `0x200` on and nothing else changes but the phase,
`RUN`; of more bytes: no memory changes and the CORE is in `HALT` with cause 1 (R275 to R277, R279; decision D29).
That an accepted load writes no `PC` and nothing else is the model's deduction (notes/assumptions 20). The script and
`io` are the model's (notes/assumptions 1, 3). -/
def Obligations.LoadInIdle : Prop :=
  ∀ (s : State) (bytes : List Byte) (rest : List Event),
    s.io.events = .load bytes :: rest → s.phase = .idle →
    (bytes.length ≤ 3584 → ∃ t, step s = .next t ∧ t.io.result = some .ok ∧ t.io.events = rest ∧
      (∀ (k : Nat) (h : k < bytes.length), t.mem.read (0x200 + k) = bytes[k]) ∧
      BytesKept 0x200 bytes.length s t ∧ t.phase = .run ∧ t.cause = s.cause ∧ t.faultPc = s.faultPc ∧
      t.faultWord = s.faultWord ∧ OnlyChanges [.mem, .fault, .result, .inputs] s t) ∧
    (3584 < bytes.length → ∃ t, step s = .next t ∧
      t.io.result = some (.fatal .programLoadOverflow none none) ∧ t.io.events = rest ∧ t.phase = .halt ∧
      t.cause = .programLoadOverflow ∧ t.faultPc = 0 ∧ t.faultWord = 0 ∧
      OnlyChanges [.fault, .result, .inputs] s t)

/-! ## Rules about the whole machine -/

/-- The invariant holds after reset (R44, R47, R48; R120, R122 for the return addresses). Its clause on the canonical
form of memory is the model's own choice (notes/assumptions 5), no rule of the spec. -/
def Obligations.InvariantHoldsAtReset : Prop := State.reset.Inv

/-- Every step keeps the invariant, whatever the host does: the range of `FRAC`, `CAUSE` exactly in `HALT`, the bound
on `PC`, the reset values in `IDLE` (R36, R43; R48, which the spec marks as derived), `FAULT_PC` and `FAULT_WORD`
clear outside `HALT` (R44), the bound on live return addresses (R120, R122), and the canonical form of memory, which
is the model's own choice (notes/assumptions 5), no rule of the spec. -/
def Obligations.StepKeepsInvariant : Prop := ∀ s t : State, s.Inv → step s = .next t → t.Inv

/-- Only `Reset` leaves `HALT`: after any other event the phase, `CAUSE`, `FAULT_PC` and `FAULT_WORD` are as before,
and only the timers and the interface have changed (R42, R43, R242; the spec's decisions D6 and D26). The script and
`io` are the model's (notes/assumptions 1, 3). -/
def Obligations.OnlyResetLeavesHalt : Prop :=
  ∀ s t : State, s.phase = .halt → (∀ rest, s.io.events ≠ .reset :: rest) → step s = .next t →
    t.phase = .halt ∧ OnlyChanges [.dt, .st, .frac, .result, .inputs] s t

/-- The diagnostic flags are sticky: no event but `Reset` clears one (R45, R241). The script and `io` are the model's
(notes/assumptions 1, 3). -/
def Obligations.DiagnosticsAreSticky : Prop :=
  ∀ s t : State, (∀ rest, s.io.events ≠ .reset :: rest) → step s = .next t →
    (s.diagUnimpl = true → t.diagUnimpl = true) ∧ (s.diagUnderflow = true → t.diagUnderflow = true)

/-- Which pieces of state each instruction can change, over all instructions: memory only by `FX33` and `FX55`, the
screen only by `00E0` and `DXYN`, the stack only by `2NNN` and `00EE`, `I` only by five instructions, the timers only
by `FX15` and `FX18` (R32, R34, R35, R38, R71). -/
def Obligations.InstructionsChangeOnlyTheirState : Prop :=
  ∀ (i : Instr) (s t : State), exec i s = .next t → OnlyChanges (mayChange i) s t

/-- Which general registers each instruction can change, over all instructions: its destination as the opcode map
(R96) and the instruction's own rule give it (`V[0]` to `V[x]` for `FX65`, R209; no register for flow, skips, timer
writes, index and stores), and VF for the six instructions that write a flag and for no other (R31; decisions D18 and
D21 for the logic instructions and `FX1E`). -/
def Obligations.InstructionsWriteOnlyTheirRegisters : Prop :=
  ∀ (i : Instr) (s t : State) (z : Reg), exec i s = .next t → mayWriteReg i z = false → t.getV z = s.getV z

/-- An instruction other than `EX9E`, `EXA1`, `FX0A` and `CXNN` does not see the inputs: with other keys and another
random byte it does the same (R39, R40). Where the inputs stand is the model's (notes/assumptions 3). -/
def Obligations.InputsReachOnlyFourInstructions : Prop :=
  ∀ (i : Instr) (s t : State) (keys : BitVec 16) (rnd : Byte), exec i s = .next t →
    (∀ x, i ≠ .skp x) → (∀ x, i ≠ .sknp x) → (∀ x, i ≠ .ldVxK x) → (∀ x nn, i ≠ .rnd x nn) →
    exec i { s with io := { s.io with keys := keys, rnd := rnd } } =
      .next { t with io := { t.io with keys := keys, rnd := rnd } }

/-- A `Step` in phase `RUN` raises at most one condition and says which: `Ok` with the status block untouched, or one
diagnostic with its flag, its address and its word, or one fatal condition with the CORE halted (R46, R240, R241;
R238, which the spec marks as derived; the state left is its decision D7). The script and `io` are the model's
(notes/assumptions 1, 3). -/
def Obligations.StepResultMatchesStatusBlock : Prop :=
  ∀ (s t : State) (keys : BitVec 16) (rnd : Byte) (rest : List Event),
    s.io.events = .step keys rnd :: rest → s.phase = .run → step s = .next t →
    (t.io.result = some .ok ∧ Unchanged s t .fault ∧ Unchanged s t .diag) ∨
    (∃ d w, t.io.result = some (.diagnostic d s.pc w) ∧ t.diagPc = s.pc ∧ t.diagWord = w ∧
      t.diagUnimpl = (s.diagUnimpl || d == .unimplementedOpcode) ∧
      t.diagUnderflow = (s.diagUnderflow || d == .stackUnderflow) ∧ Unchanged s t .fault) ∨
    (∃ c w, t.io.result = some (.fatal c (some s.pc) w) ∧ t.phase = .halt ∧ t.cause = c ∧ c ≠ .none ∧
      c ≠ .programLoadOverflow ∧ t.faultPc = s.pc ∧ t.faultWord = w.getD 0 ∧ Unchanged s t .diag)

/-- A run that has ended normally stays where it is: a `Step` on a jump to itself changes nothing but the interface
(R288, a recommendation the spec marks as derived). The script and `io` are the model's (notes/assumptions 1, 3). -/
def Obligations.SelfJumpIsTheEnd : Prop :=
  ∀ (s : State) (keys : BitVec 16) (rnd : Byte) (rest : List Event),
    s.io.events = .step keys rnd :: rest → s.endedNormally →
    ∃ t, step s = .next t ∧ t.endedNormally ∧ OnlyChanges [.result, .inputs] s t

/-! ## What the host reads (spec/10_state.md R25, R42, R43) -/

/-- The display port shows the cell of column `px`, row `py` at linear index `64*y + x` as a byte 0 or 1,
`sound_active` is `ST != 0`, and the status block shows the phase and the cause by their codes (R25, R38, R42, R43,
R178, R230; the spec's decisions D5, D15 and D31). -/
def Obligations.HostReadsScreenSoundAndStatus : Prop :=
  ∀ s : State,
    (∀ (px : Fin 64) (py : Fin 32),
      s.displayByte (64 * py.val + px.val) = some (if s.fb.pixel px py then 1 else 0)) ∧
    (s.soundActive = true ↔ s.st.toNat ≠ 0) ∧
    (s.statusBlock.phase.toNat = match s.phase with | .idle => 0 | .run => 1 | .halt => 2) ∧
    (s.statusBlock.cause.toNat = match s.cause with
      | .none => 0 | .programLoadOverflow => 1 | .stackOverflow => 2 | .outOfBoundsFetch => 5
      | .memoryOutOfBounds => 6)
end

