-- ==== Sys2Proof/Laws/State.lean ====
section
/-! SUPPORT. One lemma per field per update: what each shared update of `State` leaves in each field. -/

namespace Sys2Proof.Machine

variable (s : State)

/-! ## State.setV -/

@[simp] theorem State.setV_i (x : Reg) (b : Byte) : (s.setV x b).i = s.i := rfl
@[simp] theorem State.setV_pc (x : Reg) (b : Byte) : (s.setV x b).pc = s.pc := rfl
@[simp] theorem State.setV_sp (x : Reg) (b : Byte) : (s.setV x b).sp = s.sp := rfl
@[simp] theorem State.setV_stack (x : Reg) (b : Byte) : (s.setV x b).stack = s.stack := rfl
@[simp] theorem State.setV_dt (x : Reg) (b : Byte) : (s.setV x b).dt = s.dt := rfl
@[simp] theorem State.setV_st (x : Reg) (b : Byte) : (s.setV x b).st = s.st := rfl
@[simp] theorem State.setV_frac (x : Reg) (b : Byte) : (s.setV x b).frac = s.frac := rfl
@[simp] theorem State.setV_mem (x : Reg) (b : Byte) : (s.setV x b).mem = s.mem := rfl
@[simp] theorem State.setV_fb (x : Reg) (b : Byte) : (s.setV x b).fb = s.fb := rfl
@[simp] theorem State.setV_phase (x : Reg) (b : Byte) : (s.setV x b).phase = s.phase := rfl
@[simp] theorem State.setV_cause (x : Reg) (b : Byte) : (s.setV x b).cause = s.cause := rfl
@[simp] theorem State.setV_faultPc (x : Reg) (b : Byte) : (s.setV x b).faultPc = s.faultPc := rfl
@[simp] theorem State.setV_faultWord (x : Reg) (b : Byte) : (s.setV x b).faultWord = s.faultWord := rfl
@[simp] theorem State.setV_diagUnimpl (x : Reg) (b : Byte) : (s.setV x b).diagUnimpl = s.diagUnimpl := rfl
@[simp] theorem State.setV_diagUnderflow (x : Reg) (b : Byte) : (s.setV x b).diagUnderflow = s.diagUnderflow := rfl
@[simp] theorem State.setV_diagPc (x : Reg) (b : Byte) : (s.setV x b).diagPc = s.diagPc := rfl
@[simp] theorem State.setV_diagWord (x : Reg) (b : Byte) : (s.setV x b).diagWord = s.diagWord := rfl
@[simp] theorem State.setV_io (x : Reg) (b : Byte) : (s.setV x b).io = s.io := rfl
@[simp] theorem State.setV_v (x : Reg) (b : Byte) : (s.setV x b).v = s.v.set x b := rfl

/-! ## State.setI -/

@[simp] theorem State.setI_v (a : Word) : (s.setI a).v = s.v := rfl
@[simp] theorem State.setI_pc (a : Word) : (s.setI a).pc = s.pc := rfl
@[simp] theorem State.setI_sp (a : Word) : (s.setI a).sp = s.sp := rfl
@[simp] theorem State.setI_stack (a : Word) : (s.setI a).stack = s.stack := rfl
@[simp] theorem State.setI_dt (a : Word) : (s.setI a).dt = s.dt := rfl
@[simp] theorem State.setI_st (a : Word) : (s.setI a).st = s.st := rfl
@[simp] theorem State.setI_frac (a : Word) : (s.setI a).frac = s.frac := rfl
@[simp] theorem State.setI_mem (a : Word) : (s.setI a).mem = s.mem := rfl
@[simp] theorem State.setI_fb (a : Word) : (s.setI a).fb = s.fb := rfl
@[simp] theorem State.setI_phase (a : Word) : (s.setI a).phase = s.phase := rfl
@[simp] theorem State.setI_cause (a : Word) : (s.setI a).cause = s.cause := rfl
@[simp] theorem State.setI_faultPc (a : Word) : (s.setI a).faultPc = s.faultPc := rfl
@[simp] theorem State.setI_faultWord (a : Word) : (s.setI a).faultWord = s.faultWord := rfl
@[simp] theorem State.setI_diagUnimpl (a : Word) : (s.setI a).diagUnimpl = s.diagUnimpl := rfl
@[simp] theorem State.setI_diagUnderflow (a : Word) : (s.setI a).diagUnderflow = s.diagUnderflow := rfl
@[simp] theorem State.setI_diagPc (a : Word) : (s.setI a).diagPc = s.diagPc := rfl
@[simp] theorem State.setI_diagWord (a : Word) : (s.setI a).diagWord = s.diagWord := rfl
@[simp] theorem State.setI_io (a : Word) : (s.setI a).io = s.io := rfl
@[simp] theorem State.setI_i (a : Word) : (s.setI a).i = a := rfl

/-! ## State.jump -/

@[simp] theorem State.jump_v (a : Word) : (s.jump a).v = s.v := rfl
@[simp] theorem State.jump_i (a : Word) : (s.jump a).i = s.i := rfl
@[simp] theorem State.jump_sp (a : Word) : (s.jump a).sp = s.sp := rfl
@[simp] theorem State.jump_stack (a : Word) : (s.jump a).stack = s.stack := rfl
@[simp] theorem State.jump_dt (a : Word) : (s.jump a).dt = s.dt := rfl
@[simp] theorem State.jump_st (a : Word) : (s.jump a).st = s.st := rfl
@[simp] theorem State.jump_frac (a : Word) : (s.jump a).frac = s.frac := rfl
@[simp] theorem State.jump_mem (a : Word) : (s.jump a).mem = s.mem := rfl
@[simp] theorem State.jump_fb (a : Word) : (s.jump a).fb = s.fb := rfl
@[simp] theorem State.jump_phase (a : Word) : (s.jump a).phase = s.phase := rfl
@[simp] theorem State.jump_cause (a : Word) : (s.jump a).cause = s.cause := rfl
@[simp] theorem State.jump_faultPc (a : Word) : (s.jump a).faultPc = s.faultPc := rfl
@[simp] theorem State.jump_faultWord (a : Word) : (s.jump a).faultWord = s.faultWord := rfl
@[simp] theorem State.jump_diagUnimpl (a : Word) : (s.jump a).diagUnimpl = s.diagUnimpl := rfl
@[simp] theorem State.jump_diagUnderflow (a : Word) : (s.jump a).diagUnderflow = s.diagUnderflow := rfl
@[simp] theorem State.jump_diagPc (a : Word) : (s.jump a).diagPc = s.diagPc := rfl
@[simp] theorem State.jump_diagWord (a : Word) : (s.jump a).diagWord = s.diagWord := rfl
@[simp] theorem State.jump_io (a : Word) : (s.jump a).io = s.io := rfl
@[simp] theorem State.jump_pc (a : Word) : (s.jump a).pc = a := rfl

/-! ## State.advance -/

@[simp] theorem State.advance_v : (s.advance).v = s.v := rfl
@[simp] theorem State.advance_i : (s.advance).i = s.i := rfl
@[simp] theorem State.advance_sp : (s.advance).sp = s.sp := rfl
@[simp] theorem State.advance_stack : (s.advance).stack = s.stack := rfl
@[simp] theorem State.advance_dt : (s.advance).dt = s.dt := rfl
@[simp] theorem State.advance_st : (s.advance).st = s.st := rfl
@[simp] theorem State.advance_frac : (s.advance).frac = s.frac := rfl
@[simp] theorem State.advance_mem : (s.advance).mem = s.mem := rfl
@[simp] theorem State.advance_fb : (s.advance).fb = s.fb := rfl
@[simp] theorem State.advance_phase : (s.advance).phase = s.phase := rfl
@[simp] theorem State.advance_cause : (s.advance).cause = s.cause := rfl
@[simp] theorem State.advance_faultPc : (s.advance).faultPc = s.faultPc := rfl
@[simp] theorem State.advance_faultWord : (s.advance).faultWord = s.faultWord := rfl
@[simp] theorem State.advance_diagUnimpl : (s.advance).diagUnimpl = s.diagUnimpl := rfl
@[simp] theorem State.advance_diagUnderflow : (s.advance).diagUnderflow = s.diagUnderflow := rfl
@[simp] theorem State.advance_diagPc : (s.advance).diagPc = s.diagPc := rfl
@[simp] theorem State.advance_diagWord : (s.advance).diagWord = s.diagWord := rfl
@[simp] theorem State.advance_io : (s.advance).io = s.io := rfl
@[simp] theorem State.advance_pc : (s.advance).pc = s.pc + 2 := rfl

/-! ## State.stepI -/

@[simp] theorem State.stepI_v (x : Reg) : (s.stepI x).v = s.v := rfl
@[simp] theorem State.stepI_pc (x : Reg) : (s.stepI x).pc = s.pc := rfl
@[simp] theorem State.stepI_sp (x : Reg) : (s.stepI x).sp = s.sp := rfl
@[simp] theorem State.stepI_stack (x : Reg) : (s.stepI x).stack = s.stack := rfl
@[simp] theorem State.stepI_dt (x : Reg) : (s.stepI x).dt = s.dt := rfl
@[simp] theorem State.stepI_st (x : Reg) : (s.stepI x).st = s.st := rfl
@[simp] theorem State.stepI_frac (x : Reg) : (s.stepI x).frac = s.frac := rfl
@[simp] theorem State.stepI_mem (x : Reg) : (s.stepI x).mem = s.mem := rfl
@[simp] theorem State.stepI_fb (x : Reg) : (s.stepI x).fb = s.fb := rfl
@[simp] theorem State.stepI_phase (x : Reg) : (s.stepI x).phase = s.phase := rfl
@[simp] theorem State.stepI_cause (x : Reg) : (s.stepI x).cause = s.cause := rfl
@[simp] theorem State.stepI_faultPc (x : Reg) : (s.stepI x).faultPc = s.faultPc := rfl
@[simp] theorem State.stepI_faultWord (x : Reg) : (s.stepI x).faultWord = s.faultWord := rfl
@[simp] theorem State.stepI_diagUnimpl (x : Reg) : (s.stepI x).diagUnimpl = s.diagUnimpl := rfl
@[simp] theorem State.stepI_diagUnderflow (x : Reg) : (s.stepI x).diagUnderflow = s.diagUnderflow := rfl
@[simp] theorem State.stepI_diagPc (x : Reg) : (s.stepI x).diagPc = s.diagPc := rfl
@[simp] theorem State.stepI_diagWord (x : Reg) : (s.stepI x).diagWord = s.diagWord := rfl
@[simp] theorem State.stepI_io (x : Reg) : (s.stepI x).io = s.io := rfl
@[simp] theorem State.stepI_i (x : Reg) : (s.stepI x).i = s.i + BitVec.ofNat 16 (x.val + 1) := rfl

/-! ## State.setResultFlag -/

@[simp] theorem State.setResultFlag_i (x : Reg) (r : Byte) (f : Bool) : (s.setResultFlag x r f).i = s.i := rfl
@[simp] theorem State.setResultFlag_pc (x : Reg) (r : Byte) (f : Bool) : (s.setResultFlag x r f).pc = s.pc := rfl
@[simp] theorem State.setResultFlag_sp (x : Reg) (r : Byte) (f : Bool) : (s.setResultFlag x r f).sp = s.sp := rfl
@[simp] theorem State.setResultFlag_stack (x : Reg) (r : Byte) (f : Bool) : (s.setResultFlag x r f).stack = s.stack := rfl
@[simp] theorem State.setResultFlag_dt (x : Reg) (r : Byte) (f : Bool) : (s.setResultFlag x r f).dt = s.dt := rfl
@[simp] theorem State.setResultFlag_st (x : Reg) (r : Byte) (f : Bool) : (s.setResultFlag x r f).st = s.st := rfl
@[simp] theorem State.setResultFlag_frac (x : Reg) (r : Byte) (f : Bool) : (s.setResultFlag x r f).frac = s.frac := rfl
@[simp] theorem State.setResultFlag_mem (x : Reg) (r : Byte) (f : Bool) : (s.setResultFlag x r f).mem = s.mem := rfl
@[simp] theorem State.setResultFlag_fb (x : Reg) (r : Byte) (f : Bool) : (s.setResultFlag x r f).fb = s.fb := rfl
@[simp] theorem State.setResultFlag_phase (x : Reg) (r : Byte) (f : Bool) : (s.setResultFlag x r f).phase = s.phase := rfl
@[simp] theorem State.setResultFlag_cause (x : Reg) (r : Byte) (f : Bool) : (s.setResultFlag x r f).cause = s.cause := rfl
@[simp] theorem State.setResultFlag_faultPc (x : Reg) (r : Byte) (f : Bool) : (s.setResultFlag x r f).faultPc = s.faultPc := rfl
@[simp] theorem State.setResultFlag_faultWord (x : Reg) (r : Byte) (f : Bool) : (s.setResultFlag x r f).faultWord = s.faultWord := rfl
@[simp] theorem State.setResultFlag_diagUnimpl (x : Reg) (r : Byte) (f : Bool) : (s.setResultFlag x r f).diagUnimpl = s.diagUnimpl := rfl
@[simp] theorem State.setResultFlag_diagUnderflow (x : Reg) (r : Byte) (f : Bool) : (s.setResultFlag x r f).diagUnderflow = s.diagUnderflow := rfl
@[simp] theorem State.setResultFlag_diagPc (x : Reg) (r : Byte) (f : Bool) : (s.setResultFlag x r f).diagPc = s.diagPc := rfl
@[simp] theorem State.setResultFlag_diagWord (x : Reg) (r : Byte) (f : Bool) : (s.setResultFlag x r f).diagWord = s.diagWord := rfl
@[simp] theorem State.setResultFlag_io (x : Reg) (r : Byte) (f : Bool) : (s.setResultFlag x r f).io = s.io := rfl
@[simp] theorem State.setResultFlag_v (x : Reg) (r : Byte) (f : Bool) : (s.setResultFlag x r f).v = (s.v.set x r).set Reg.vf (flag f) := rfl

/-! ## State.sample -/

@[simp] theorem State.sample_v (keys : BitVec 16) (rnd : Byte) : (s.sample keys rnd).v = s.v := rfl
@[simp] theorem State.sample_i (keys : BitVec 16) (rnd : Byte) : (s.sample keys rnd).i = s.i := rfl
@[simp] theorem State.sample_pc (keys : BitVec 16) (rnd : Byte) : (s.sample keys rnd).pc = s.pc := rfl
@[simp] theorem State.sample_sp (keys : BitVec 16) (rnd : Byte) : (s.sample keys rnd).sp = s.sp := rfl
@[simp] theorem State.sample_stack (keys : BitVec 16) (rnd : Byte) : (s.sample keys rnd).stack = s.stack := rfl
@[simp] theorem State.sample_dt (keys : BitVec 16) (rnd : Byte) : (s.sample keys rnd).dt = s.dt := rfl
@[simp] theorem State.sample_st (keys : BitVec 16) (rnd : Byte) : (s.sample keys rnd).st = s.st := rfl
@[simp] theorem State.sample_frac (keys : BitVec 16) (rnd : Byte) : (s.sample keys rnd).frac = s.frac := rfl
@[simp] theorem State.sample_mem (keys : BitVec 16) (rnd : Byte) : (s.sample keys rnd).mem = s.mem := rfl
@[simp] theorem State.sample_fb (keys : BitVec 16) (rnd : Byte) : (s.sample keys rnd).fb = s.fb := rfl
@[simp] theorem State.sample_phase (keys : BitVec 16) (rnd : Byte) : (s.sample keys rnd).phase = s.phase := rfl
@[simp] theorem State.sample_cause (keys : BitVec 16) (rnd : Byte) : (s.sample keys rnd).cause = s.cause := rfl
@[simp] theorem State.sample_faultPc (keys : BitVec 16) (rnd : Byte) : (s.sample keys rnd).faultPc = s.faultPc := rfl
@[simp] theorem State.sample_faultWord (keys : BitVec 16) (rnd : Byte) : (s.sample keys rnd).faultWord = s.faultWord := rfl
@[simp] theorem State.sample_diagUnimpl (keys : BitVec 16) (rnd : Byte) : (s.sample keys rnd).diagUnimpl = s.diagUnimpl := rfl
@[simp] theorem State.sample_diagUnderflow (keys : BitVec 16) (rnd : Byte) : (s.sample keys rnd).diagUnderflow = s.diagUnderflow := rfl
@[simp] theorem State.sample_diagPc (keys : BitVec 16) (rnd : Byte) : (s.sample keys rnd).diagPc = s.diagPc := rfl
@[simp] theorem State.sample_diagWord (keys : BitVec 16) (rnd : Byte) : (s.sample keys rnd).diagWord = s.diagWord := rfl

@[simp] theorem State.sample_keys (keys : BitVec 16) (rnd : Byte) : (s.sample keys rnd).io.keys = keys := rfl
@[simp] theorem State.sample_rnd (keys : BitVec 16) (rnd : Byte) : (s.sample keys rnd).io.rnd = rnd := rfl
@[simp] theorem State.sample_result (keys : BitVec 16) (rnd : Byte) :
    (s.sample keys rnd).io.result = some .ok := rfl
@[simp] theorem State.sample_events (keys : BitVec 16) (rnd : Byte) :
    (s.sample keys rnd).io.events = s.io.events := rfl
@[simp] theorem State.sample_drawn (keys : BitVec 16) (rnd : Byte) :
    (s.sample keys rnd).io.drawn = s.io.drawn := rfl

/-! ## State.refuse -/

@[simp] theorem State.refuse_v : (s.refuse).v = s.v := rfl
@[simp] theorem State.refuse_i : (s.refuse).i = s.i := rfl
@[simp] theorem State.refuse_pc : (s.refuse).pc = s.pc := rfl
@[simp] theorem State.refuse_sp : (s.refuse).sp = s.sp := rfl
@[simp] theorem State.refuse_stack : (s.refuse).stack = s.stack := rfl
@[simp] theorem State.refuse_dt : (s.refuse).dt = s.dt := rfl
@[simp] theorem State.refuse_st : (s.refuse).st = s.st := rfl
@[simp] theorem State.refuse_frac : (s.refuse).frac = s.frac := rfl
@[simp] theorem State.refuse_mem : (s.refuse).mem = s.mem := rfl
@[simp] theorem State.refuse_fb : (s.refuse).fb = s.fb := rfl
@[simp] theorem State.refuse_phase : (s.refuse).phase = s.phase := rfl
@[simp] theorem State.refuse_cause : (s.refuse).cause = s.cause := rfl
@[simp] theorem State.refuse_faultPc : (s.refuse).faultPc = s.faultPc := rfl
@[simp] theorem State.refuse_faultWord : (s.refuse).faultWord = s.faultWord := rfl
@[simp] theorem State.refuse_diagUnimpl : (s.refuse).diagUnimpl = s.diagUnimpl := rfl
@[simp] theorem State.refuse_diagUnderflow : (s.refuse).diagUnderflow = s.diagUnderflow := rfl
@[simp] theorem State.refuse_diagPc : (s.refuse).diagPc = s.diagPc := rfl
@[simp] theorem State.refuse_diagWord : (s.refuse).diagWord = s.diagWord := rfl

@[simp] theorem State.refuse_keys : s.refuse.io.keys = s.io.keys := rfl
@[simp] theorem State.refuse_rnd : s.refuse.io.rnd = s.io.rnd := rfl
@[simp] theorem State.refuse_result : s.refuse.io.result = some .refused := rfl
@[simp] theorem State.refuse_events : s.refuse.io.events = s.io.events := rfl
@[simp] theorem State.refuse_drawn : s.refuse.io.drawn = s.io.drawn := rfl

/-! ## State.raiseFatal -/

@[simp] theorem State.raiseFatal_v (c : Cause) (pc word : Option Word) : (s.raiseFatal c pc word).v = s.v := rfl
@[simp] theorem State.raiseFatal_i (c : Cause) (pc word : Option Word) : (s.raiseFatal c pc word).i = s.i := rfl
@[simp] theorem State.raiseFatal_pc (c : Cause) (pc word : Option Word) : (s.raiseFatal c pc word).pc = s.pc := rfl
@[simp] theorem State.raiseFatal_sp (c : Cause) (pc word : Option Word) : (s.raiseFatal c pc word).sp = s.sp := rfl
@[simp] theorem State.raiseFatal_stack (c : Cause) (pc word : Option Word) : (s.raiseFatal c pc word).stack = s.stack := rfl
@[simp] theorem State.raiseFatal_dt (c : Cause) (pc word : Option Word) : (s.raiseFatal c pc word).dt = s.dt := rfl
@[simp] theorem State.raiseFatal_st (c : Cause) (pc word : Option Word) : (s.raiseFatal c pc word).st = s.st := rfl
@[simp] theorem State.raiseFatal_frac (c : Cause) (pc word : Option Word) : (s.raiseFatal c pc word).frac = s.frac := rfl
@[simp] theorem State.raiseFatal_mem (c : Cause) (pc word : Option Word) : (s.raiseFatal c pc word).mem = s.mem := rfl
@[simp] theorem State.raiseFatal_fb (c : Cause) (pc word : Option Word) : (s.raiseFatal c pc word).fb = s.fb := rfl
@[simp] theorem State.raiseFatal_diagUnimpl (c : Cause) (pc word : Option Word) : (s.raiseFatal c pc word).diagUnimpl = s.diagUnimpl := rfl
@[simp] theorem State.raiseFatal_diagUnderflow (c : Cause) (pc word : Option Word) : (s.raiseFatal c pc word).diagUnderflow = s.diagUnderflow := rfl
@[simp] theorem State.raiseFatal_diagPc (c : Cause) (pc word : Option Word) : (s.raiseFatal c pc word).diagPc = s.diagPc := rfl
@[simp] theorem State.raiseFatal_diagWord (c : Cause) (pc word : Option Word) : (s.raiseFatal c pc word).diagWord = s.diagWord := rfl
@[simp] theorem State.raiseFatal_phase (c : Cause) (pc word : Option Word) : (s.raiseFatal c pc word).phase = .halt := rfl
@[simp] theorem State.raiseFatal_cause (c : Cause) (pc word : Option Word) : (s.raiseFatal c pc word).cause = c := rfl
@[simp] theorem State.raiseFatal_faultPc (c : Cause) (pc word : Option Word) : (s.raiseFatal c pc word).faultPc = pc.getD 0 := rfl
@[simp] theorem State.raiseFatal_faultWord (c : Cause) (pc word : Option Word) : (s.raiseFatal c pc word).faultWord = word.getD 0 := rfl

@[simp] theorem State.raiseFatal_keys (c : Cause) (pc word : Option Word) :
    (s.raiseFatal c pc word).io.keys = s.io.keys := rfl
@[simp] theorem State.raiseFatal_rnd (c : Cause) (pc word : Option Word) :
    (s.raiseFatal c pc word).io.rnd = s.io.rnd := rfl
@[simp] theorem State.raiseFatal_events (c : Cause) (pc word : Option Word) :
    (s.raiseFatal c pc word).io.events = s.io.events := rfl
@[simp] theorem State.raiseFatal_drawn (c : Cause) (pc word : Option Word) :
    (s.raiseFatal c pc word).io.drawn = s.io.drawn := rfl
@[simp] theorem State.raiseFatal_result (c : Cause) (pc word : Option Word) :
    (s.raiseFatal c pc word).io.result = some (.fatal c pc word) := rfl

/-! ## State.raiseDiagnostic -/

@[simp] theorem State.raiseDiagnostic_v (d : Diagnostic) (pc word : Word) : (s.raiseDiagnostic d pc word).v = s.v := rfl
@[simp] theorem State.raiseDiagnostic_i (d : Diagnostic) (pc word : Word) : (s.raiseDiagnostic d pc word).i = s.i := rfl
@[simp] theorem State.raiseDiagnostic_pc (d : Diagnostic) (pc word : Word) : (s.raiseDiagnostic d pc word).pc = s.pc := rfl
@[simp] theorem State.raiseDiagnostic_sp (d : Diagnostic) (pc word : Word) : (s.raiseDiagnostic d pc word).sp = s.sp := rfl
@[simp] theorem State.raiseDiagnostic_stack (d : Diagnostic) (pc word : Word) : (s.raiseDiagnostic d pc word).stack = s.stack := rfl
@[simp] theorem State.raiseDiagnostic_dt (d : Diagnostic) (pc word : Word) : (s.raiseDiagnostic d pc word).dt = s.dt := rfl
@[simp] theorem State.raiseDiagnostic_st (d : Diagnostic) (pc word : Word) : (s.raiseDiagnostic d pc word).st = s.st := rfl
@[simp] theorem State.raiseDiagnostic_frac (d : Diagnostic) (pc word : Word) : (s.raiseDiagnostic d pc word).frac = s.frac := rfl
@[simp] theorem State.raiseDiagnostic_mem (d : Diagnostic) (pc word : Word) : (s.raiseDiagnostic d pc word).mem = s.mem := rfl
@[simp] theorem State.raiseDiagnostic_fb (d : Diagnostic) (pc word : Word) : (s.raiseDiagnostic d pc word).fb = s.fb := rfl
@[simp] theorem State.raiseDiagnostic_phase (d : Diagnostic) (pc word : Word) : (s.raiseDiagnostic d pc word).phase = s.phase := rfl
@[simp] theorem State.raiseDiagnostic_cause (d : Diagnostic) (pc word : Word) : (s.raiseDiagnostic d pc word).cause = s.cause := rfl
@[simp] theorem State.raiseDiagnostic_faultPc (d : Diagnostic) (pc word : Word) : (s.raiseDiagnostic d pc word).faultPc = s.faultPc := rfl
@[simp] theorem State.raiseDiagnostic_faultWord (d : Diagnostic) (pc word : Word) : (s.raiseDiagnostic d pc word).faultWord = s.faultWord := rfl
@[simp] theorem State.raiseDiagnostic_diagPc (d : Diagnostic) (pc word : Word) : (s.raiseDiagnostic d pc word).diagPc = pc := rfl
@[simp] theorem State.raiseDiagnostic_diagWord (d : Diagnostic) (pc word : Word) : (s.raiseDiagnostic d pc word).diagWord = word := rfl

@[simp] theorem State.raiseDiagnostic_keys (d : Diagnostic) (pc word : Word) :
    (s.raiseDiagnostic d pc word).io.keys = s.io.keys := rfl
@[simp] theorem State.raiseDiagnostic_rnd (d : Diagnostic) (pc word : Word) :
    (s.raiseDiagnostic d pc word).io.rnd = s.io.rnd := rfl
@[simp] theorem State.raiseDiagnostic_events (d : Diagnostic) (pc word : Word) :
    (s.raiseDiagnostic d pc word).io.events = s.io.events := rfl
@[simp] theorem State.raiseDiagnostic_drawn (d : Diagnostic) (pc word : Word) :
    (s.raiseDiagnostic d pc word).io.drawn = s.io.drawn := rfl
@[simp] theorem State.raiseDiagnostic_result (d : Diagnostic) (pc word : Word) :
    (s.raiseDiagnostic d pc word).io.result = some (.diagnostic d pc word) := rfl
@[simp] theorem State.raiseDiagnostic_diagUnimpl (d : Diagnostic) (pc word : Word) :
    (s.raiseDiagnostic d pc word).diagUnimpl = (s.diagUnimpl || d == .unimplementedOpcode) := by
  cases d <;> simp [State.raiseDiagnostic]
@[simp] theorem State.raiseDiagnostic_diagUnderflow (d : Diagnostic) (pc word : Word) :
    (s.raiseDiagnostic d pc word).diagUnderflow = (s.diagUnderflow || d == .stackUnderflow) := by
  cases d <;> simp [State.raiseDiagnostic]

/-! ## State.settleFrac -/

@[simp] theorem State.settleFrac_v : s.settleFrac.v = s.v := by
  unfold State.settleFrac; split <;> rfl
@[simp] theorem State.settleFrac_i : s.settleFrac.i = s.i := by
  unfold State.settleFrac; split <;> rfl
@[simp] theorem State.settleFrac_pc : s.settleFrac.pc = s.pc := by
  unfold State.settleFrac; split <;> rfl
@[simp] theorem State.settleFrac_sp : s.settleFrac.sp = s.sp := by
  unfold State.settleFrac; split <;> rfl
@[simp] theorem State.settleFrac_stack : s.settleFrac.stack = s.stack := by
  unfold State.settleFrac; split <;> rfl
@[simp] theorem State.settleFrac_dt : s.settleFrac.dt = s.dt := by
  unfold State.settleFrac; split <;> rfl
@[simp] theorem State.settleFrac_st : s.settleFrac.st = s.st := by
  unfold State.settleFrac; split <;> rfl
@[simp] theorem State.settleFrac_mem : s.settleFrac.mem = s.mem := by
  unfold State.settleFrac; split <;> rfl
@[simp] theorem State.settleFrac_fb : s.settleFrac.fb = s.fb := by
  unfold State.settleFrac; split <;> rfl
@[simp] theorem State.settleFrac_phase : s.settleFrac.phase = s.phase := by
  unfold State.settleFrac; split <;> rfl
@[simp] theorem State.settleFrac_cause : s.settleFrac.cause = s.cause := by
  unfold State.settleFrac; split <;> rfl
@[simp] theorem State.settleFrac_faultPc : s.settleFrac.faultPc = s.faultPc := by
  unfold State.settleFrac; split <;> rfl
@[simp] theorem State.settleFrac_faultWord : s.settleFrac.faultWord = s.faultWord := by
  unfold State.settleFrac; split <;> rfl
@[simp] theorem State.settleFrac_diagUnimpl : s.settleFrac.diagUnimpl = s.diagUnimpl := by
  unfold State.settleFrac; split <;> rfl
@[simp] theorem State.settleFrac_diagUnderflow : s.settleFrac.diagUnderflow = s.diagUnderflow := by
  unfold State.settleFrac; split <;> rfl
@[simp] theorem State.settleFrac_diagPc : s.settleFrac.diagPc = s.diagPc := by
  unfold State.settleFrac; split <;> rfl
@[simp] theorem State.settleFrac_diagWord : s.settleFrac.diagWord = s.diagWord := by
  unfold State.settleFrac; split <;> rfl
@[simp] theorem State.settleFrac_io : s.settleFrac.io = s.io := by
  unfold State.settleFrac; split <;> rfl
@[simp] theorem State.settleFrac_frac : s.settleFrac.frac = if s.dt = 0 ∧ s.st = 0 then 0 else s.frac := by
  unfold State.settleFrac; split <;> rfl

/-! ## State.timerUpdate -/

@[simp] theorem State.timerUpdate_v (e : Elapsed) : (s.timerUpdate e).v = s.v := State.settleFrac_v _
@[simp] theorem State.timerUpdate_i (e : Elapsed) : (s.timerUpdate e).i = s.i := State.settleFrac_i _
@[simp] theorem State.timerUpdate_pc (e : Elapsed) : (s.timerUpdate e).pc = s.pc := State.settleFrac_pc _
@[simp] theorem State.timerUpdate_sp (e : Elapsed) : (s.timerUpdate e).sp = s.sp := State.settleFrac_sp _
@[simp] theorem State.timerUpdate_stack (e : Elapsed) : (s.timerUpdate e).stack = s.stack := State.settleFrac_stack _
@[simp] theorem State.timerUpdate_mem (e : Elapsed) : (s.timerUpdate e).mem = s.mem := State.settleFrac_mem _
@[simp] theorem State.timerUpdate_fb (e : Elapsed) : (s.timerUpdate e).fb = s.fb := State.settleFrac_fb _
@[simp] theorem State.timerUpdate_phase (e : Elapsed) : (s.timerUpdate e).phase = s.phase := State.settleFrac_phase _
@[simp] theorem State.timerUpdate_cause (e : Elapsed) : (s.timerUpdate e).cause = s.cause := State.settleFrac_cause _
@[simp] theorem State.timerUpdate_faultPc (e : Elapsed) : (s.timerUpdate e).faultPc = s.faultPc := State.settleFrac_faultPc _
@[simp] theorem State.timerUpdate_faultWord (e : Elapsed) : (s.timerUpdate e).faultWord = s.faultWord := State.settleFrac_faultWord _
@[simp] theorem State.timerUpdate_diagUnimpl (e : Elapsed) : (s.timerUpdate e).diagUnimpl = s.diagUnimpl := State.settleFrac_diagUnimpl _
@[simp] theorem State.timerUpdate_diagUnderflow (e : Elapsed) : (s.timerUpdate e).diagUnderflow = s.diagUnderflow := State.settleFrac_diagUnderflow _
@[simp] theorem State.timerUpdate_diagPc (e : Elapsed) : (s.timerUpdate e).diagPc = s.diagPc := State.settleFrac_diagPc _
@[simp] theorem State.timerUpdate_diagWord (e : Elapsed) : (s.timerUpdate e).diagWord = s.diagWord := State.settleFrac_diagWord _
@[simp] theorem State.timerUpdate_io (e : Elapsed) : (s.timerUpdate e).io = s.io := State.settleFrac_io _

end Sys2Proof.Machine
end

