-- ==== Sys2Proof/Laws/Ops.lean ====
section
/-! SUPPORT. What each shared operation does, said once: memory, registers, stack, conditions, timers, pixels. -/

namespace Sys2Proof.Machine

variable (s : State)

/-! ## Registers -/

theorem getV_setV (x z : Reg) (b : Byte) : (s.setV x b).getV z = if z = x then b else s.getV z := by
  unfold State.setV State.getV
  by_cases h : z = x
  · subst h; simp
  · simp only [h, if_false]
    exact Vector.getElem_set_ne x.isLt z.isLt (fun e => h (Fin.ext e.symm))

@[simp] theorem getV_setV_self (x : Reg) (b : Byte) : (s.setV x b).getV x = b := by simp [getV_setV]

@[simp] theorem getV_setV_ne {x z : Reg} (b : Byte) (h : z ≠ x) : (s.setV x b).getV z = s.getV z := by
  simp [getV_setV, h]

/-- Two states with the same register file read the same. -/
theorem getV_congr {s t : State} (h : t.v = s.v) (z : Reg) : t.getV z = s.getV z := by
  unfold State.getV; rw [h]

@[simp] theorem getV_setI (a : Word) (z : Reg) : (s.setI a).getV z = s.getV z := rfl
@[simp] theorem getV_jump (a : Word) (z : Reg) : (s.jump a).getV z = s.getV z := rfl
@[simp] theorem getV_advance (z : Reg) : s.advance.getV z = s.getV z := rfl
@[simp] theorem getV_stepI (x z : Reg) : (s.stepI x).getV z = s.getV z := rfl
@[simp] theorem getV_raiseFatal (c : Cause) (pc word : Option Word) (z : Reg) :
    (s.raiseFatal c pc word).getV z = s.getV z := rfl
@[simp] theorem getV_raiseDiagnostic (d : Diagnostic) (pc word : Word) (z : Reg) :
    (s.raiseDiagnostic d pc word).getV z = s.getV z := rfl
@[simp] theorem getV_settleFrac (z : Reg) : s.settleFrac.getV z = s.getV z := getV_congr (by simp) z

/-- A result and a flag: VF ends as the flag, another destination as the result, the rest is kept (R161). -/
theorem getV_setResultFlag (x z : Reg) (r : Byte) (f : Bool) :
    (s.setResultFlag x r f).getV z = if z = Reg.vf then flag f else if z = x then r else s.getV z := by
  unfold State.setResultFlag; rw [getV_setV, getV_setV]

/-! ## Memory -/

theorem Memory.read_put (m : Memory) (a b : Nat) (u : Byte) :
    (Memory.put m a u).read b = if b = a then u else m.read b := by
  induction m with
  | nil => simp only [Memory.put, Memory.read, eq_comm]
  | cons c rest ih =>
    obtain ⟨d, w⟩ := c
    by_cases h1 : a < d
    · simp only [Memory.put, h1, if_true, Memory.read, eq_comm]
    · by_cases h2 : a = d
      · subst h2
        simp only [Memory.put, lt_irrefl, if_false, if_true, Memory.read, eq_comm (a := b)]
        by_cases hb : a = b <;> simp [hb]
      · simp only [Memory.put, h1, h2, if_false, Memory.read, ih]
        by_cases hd : d = b
        · have : b ≠ a := fun e => h2 (e ▸ hd.symm)
          simp [hd, this]
        · simp [hd]

theorem Memory.read_filter_ne (m : Memory) (a b : Nat) :
    Memory.read (m.filter (fun c => c.1 ≠ a)) b = if b = a then resetByte a else m.read b := by
  induction m with
  | nil => simp only [List.filter_nil, Memory.read]; split_ifs with h <;> simp [h]
  | cons c rest ih =>
    obtain ⟨d, w⟩ := c
    by_cases h : d = a
    · subst h
      simp only [ne_eq, not_true_eq_false, decide_false, Bool.false_eq_true, not_false_eq_true, List.filter_cons_of_neg,
        Memory.read] at ih ⊢
      rw [ih]; split_ifs <;> simp_all
    · simp only [ne_eq, h, not_false_eq_true, decide_true, List.filter_cons_of_pos, Memory.read] at ih ⊢
      rw [ih]; split_ifs <;> simp_all

/-- A write changes exactly one byte, where it exists (R67). -/
theorem Memory.read_write (m : Memory) (a b : Nat) (u : Byte) :
    (m.write a u).read b = if b = a ∧ a < Config.memSize then u else m.read b := by
  unfold Memory.write
  by_cases h : a < Config.memSize
  · by_cases hu : u = resetByte a
    · simp only [h, hu, if_true, Memory.read_filter_ne, and_true]
    · simp only [h, hu, if_true, if_false, Memory.read_put, and_true]
  · simp [h]

/-- Outside the stored block every byte reads as before. -/
theorem Memory.read_writeBlock_outside (us : List Byte) (m : Memory) (a b : Nat)
    (h : ¬(a ≤ b ∧ b < a + us.length)) : (m.writeBlock a us).read b = m.read b := by
  induction us generalizing m a with
  | nil => rfl
  | cons u us ih =>
    simp only [List.length_cons] at h
    unfold Memory.writeBlock
    rw [ih _ _ (by omega), Memory.read_write]
    simp only [ite_eq_right_iff]
    intro hb; omega

/-- Inside the stored block each byte reads as it was stored. -/
theorem Memory.read_writeBlock_inside (us : List Byte) (m : Memory) (a k : Nat) (hk : k < us.length)
    (ha : a + k < Config.memSize) : (m.writeBlock a us).read (a + k) = us[k] := by
  induction us generalizing m a k with
  | nil => simp at hk
  | cons u us ih =>
    unfold Memory.writeBlock
    cases k with
    | zero =>
      rw [Memory.read_writeBlock_outside _ _ _ _ (by omega), Memory.read_write]
      simp only [Nat.add_zero, List.getElem_cons_zero, true_and] at ha ⊢
      simp [ha]
    | succ k =>
      have := ih (m.write a u) (a + 1) k (by simpa using hk) (by omega)
      simpa [Nat.add_assoc, Nat.add_comm 1 k] using this

theorem Memory.put_mem {m : Memory} {a : Nat} {u : Byte} {c : Host.Cell} (h : c ∈ Memory.put m a u) :
    c = (a, u) ∨ c ∈ m := by
  induction m with
  | nil => simpa [Memory.put] using h
  | cons d rest ih =>
    unfold Memory.put at h
    split_ifs at h <;> simp only [List.mem_cons] at h ⊢
    · tauto
    · tauto
    · rcases h with h | h
      · tauto
      · rcases ih h with h | h <;> tauto

theorem Memory.put_wf {m : Memory} (hm : m.wf) {a : Nat} {u : Byte} (ha : a < Config.memSize)
    (hu : u ≠ resetByte a) : (Memory.put m a u).wf := by
  refine ⟨?_, fun c hc => ?_⟩
  · obtain ⟨hp, -⟩ := hm
    induction m with
    | nil => simp [Memory.put]
    | cons d rest ih =>
      rw [List.pairwise_cons] at hp
      unfold Memory.put
      split_ifs with h1 h2
      · rw [List.pairwise_cons, List.pairwise_cons]
        refine ⟨fun c hc => ?_, hp⟩
        rcases List.mem_cons.1 hc with rfl | hc
        · exact h1
        · exact Nat.lt_trans h1 (hp.1 c hc)
      · rw [List.pairwise_cons]
        exact ⟨fun c hc => h2 ▸ hp.1 c hc, hp.2⟩
      · rw [List.pairwise_cons]
        refine ⟨fun c hc => ?_, ih hp.2⟩
        rcases Memory.put_mem hc with rfl | hc
        · show d.1 < a; omega
        · exact hp.1 c hc
  · rcases Memory.put_mem hc with rfl | hc
    · exact ⟨ha, hu⟩
    · exact hm.2 c hc

/-- Every write keeps the canonical form. -/
theorem Memory.write_wf {m : Memory} (hm : m.wf) (a : Nat) (u : Byte) : (m.write a u).wf := by
  unfold Memory.write
  split_ifs with h1 h2
  · exact ⟨hm.1.filter _, fun c hc => hm.2 c (List.mem_filter.1 hc).1⟩
  · exact Memory.put_wf hm h1 h2
  · exact hm

/-- Storing a block keeps the canonical form. -/
theorem Memory.writeBlock_wf (us : List Byte) {m : Memory} (hm : m.wf) (a : Nat) : (m.writeBlock a us).wf := by
  induction us generalizing m a with
  | nil => exact hm
  | cons u us ih => exact ih (Memory.write_wf hm a u) (a + 1)

theorem reset_memory_wf : State.reset.mem.wf := by decide

/-! ## The stack -/

theorem push_of_room (w : Word) (h : s.sp.val < 16) : s.push w =
    some { s with stack := s.stack.set s.sp.val w h, sp := ⟨s.sp.val + 1, by omega⟩ } := by
  simp [State.push, h]

theorem push_of_full (w : Word) (h : s.sp = 16) : s.push w = none := by simp [State.push, h]

theorem pop_of_live (h : s.sp.val ≠ 0) : s.pop =
    some (s.stack[s.sp.val - 1]'(by omega), { s with sp := ⟨s.sp.val - 1, by omega⟩ }) := by
  simp [State.pop, h]

theorem pop_of_empty (h : s.sp = 0) : s.pop = none := by simp [State.pop, h]

/-! ## Data accesses -/

theorem inBounds_iff (len : Nat) : s.inBounds len = true ↔ len = 0 ∨ s.i.toNat + len - 1 ≤ 0xFFF := by
  simp [State.inBounds]

theorem withData_of_inBounds (i : Instr) (len : Nat) (t : State) (h : s.inBounds len = true) :
    s.withData i len t = t := by simp [State.withData, h]

theorem withData_of_outside (i : Instr) (len : Nat) (t : State) (h : s.inBounds len = false) :
    s.withData i len t = s.raiseInExec .memoryOutOfBounds i := by simp [State.withData, h]

/-- A data access either completes or raises its condition; nothing else. -/
theorem withData_cases (i : Instr) (len : Nat) (t : State) :
    (s.inBounds len = true ∧ s.withData i len t = t) ∨
    (s.inBounds len = false ∧ s.withData i len t = s.raiseInExec .memoryOutOfBounds i) := by
  cases h : s.inBounds len
  · exact .inr ⟨rfl, withData_of_outside s i len t h⟩
  · exact .inl ⟨rfl, withData_of_inBounds s i len t h⟩

/-! ## Operands -/

theorem zext16_toNat {w : Nat} (hw : w ≤ 16) (a : BitVec w) : (zext16 a).toNat = a.toNat := by
  unfold zext16; rw [BitVec.toNat_setWidth]
  exact Nat.mod_eq_of_lt (Nat.lt_of_lt_of_le a.isLt (Nat.pow_le_pow_right (by decide) hw))

theorem lowNibble_val (b : Byte) : (lowNibble b).val = b.toNat % 16 := by
  show (b.extractLsb 3 0).toNat = _
  simp only [BitVec.extractLsb_toNat, Nat.shiftRight_eq_div_pow, pow_zero, Nat.div_one]

theorem glyphAddress_toNat (d : Fin 16) : (glyphAddress d).toNat = 0x050 + 5 * d.val := by
  revert d; decide

theorem Reg.mem_all (z : Reg) : z ∈ Reg.all := by revert z; decide

@[simp] theorem Reg.mem_upTo (x z : Reg) : z ∈ Reg.upTo x ↔ z ≤ x := by
  simp [Reg.upTo, Reg.mem_all]

@[simp] theorem Reg.length_upTo (x : Reg) : (Reg.upTo x).length = x.val + 1 := by revert x; decide

theorem Reg.getElem_upTo (x : Reg) (k : Nat) (hk : k < (Reg.upTo x).length) :
    (Reg.upTo x)[k] = ⟨k, by have := Reg.length_upTo x; omega⟩ := by
  have key : ∀ x : Reg, ∀ k : Reg, k ≤ x → (Reg.upTo x)[k.val]? = some k := by decide
  have h := Reg.length_upTo x
  have := key x ⟨k, by omega⟩ (by show k ≤ x.val; omega)
  rw [List.getElem?_eq_getElem hk] at this
  exact Option.some.inj this

/-- The search along a rising list finds the smallest member that satisfies the test. -/
theorem find_rising {p : Reg → Bool} : ∀ {l : List Reg}, l.Pairwise (· < ·) → ∀ {k : Reg}, l.find? p = some k →
    p k = true ∧ ∀ j ∈ l, j < k → p j = false
  | [], _, _, h => by simp at h
  | a :: l, hl, k, h => by
    rw [List.pairwise_cons] at hl
    rw [List.find?_cons] at h
    cases ha : p a with
    | true =>
      simp only [ha, Option.some.injEq] at h
      subst h
      refine ⟨ha, fun j hj hlt => ?_⟩
      rcases List.mem_cons.1 hj with rfl | hj
      · exact absurd hlt (lt_irrefl _)
      · exact absurd hlt (lt_asymm (hl.1 j hj))
    | false =>
      simp only [ha] at h
      obtain ⟨hk, hj⟩ := find_rising hl.2 h
      refine ⟨hk, fun j hjm hlt => ?_⟩
      rcases List.mem_cons.1 hjm with rfl | hjm
      · exact ha
      · exact hj j hjm hlt

/-- The key that `FX0A` takes is down, and no smaller one is (R187). -/
theorem lowestKey_some {k : Reg} (h : s.lowestKey = some k) :
    s.keyDown k = true ∧ ∀ j, j < k → s.keyDown j = false := by
  obtain ⟨hk, hj⟩ := find_rising (by decide) h
  exact ⟨hk, fun j => hj j (Reg.mem_all j)⟩

theorem lowestKey_none (h : s.lowestKey = none) (k : Reg) : s.keyDown k = false := by
  unfold State.lowestKey at h
  rw [List.find?_eq_none] at h
  simpa using h k (Reg.mem_all k)

/-! ## Conditions of the execute stage -/

theorem raiseInExec_eq (c : Cause) (i : Instr) :
    s.raiseInExec c i = s.raiseFatal c (some (s.pc - 2)) (some (encode i)) := rfl

/-! ## Timers -/

/-- `decay` is the saturating subtraction of R250. -/
theorem decay_toNat (t : Byte) (k : Nat) : (decay t k).toNat = t.toNat - k := by
  unfold decay
  rw [BitVec.toNat_ofNat, Nat.mod_eq_of_lt (by have := t.isLt; omega)]
  omega

/-! ## Pixels -/

theorem pixel_setPixel (fb : FrameBuffer) (x z : Fin 64) (y w : Fin 32) (b : Bool) :
    (fb.setPixel x y b).pixel z w = if z = x ∧ w = y then b else fb.pixel z w := by
  unfold FrameBuffer.setPixel FrameBuffer.pixel
  by_cases hw : w = y
  · subst hw
    by_cases hz : z = x
    · subst hz; simp
    · have : x.val ≠ z.val := fun e => hz (Fin.ext e.symm)
      simp [hz, Vector.getElem_set_ne, this]
  · have : y.val ≠ w.val := fun e => hw (Fin.ext e.symm)
    simp [hw, Vector.getElem_set_ne, this]

@[simp] theorem pixel_blank (x : Fin 64) (y : Fin 32) : FrameBuffer.blank.pixel x y = false := by
  simp [FrameBuffer.blank, FrameBuffer.pixel]

/-- Two screens with the same pixels are one screen. -/
theorem FrameBuffer.ext {fb gb : FrameBuffer} (h : ∀ x y, fb.pixel x y = gb.pixel x y) : fb = gb := by
  apply Vector.ext; intro y hy
  apply Vector.ext; intro x hx
  exact h ⟨x, hx⟩ ⟨y, hy⟩

end Sys2Proof.Machine
end

