-- ==== Sys2Proof/Laws/Drawing.lean ====
section
/-! SUPPORT. Drawing: the loops of spec/45_display.md R176 toggle a list of distinct cells (R177 (e)). -/

namespace Sys2Proof.Machine

/-- A pixel's place: column and row. -/
abbrev Cell := Fin 64 × Fin 32

/-- Toggle cells one after another. -/
def toggleAll (l : List Cell) (d : Drawing) : Drawing := l.foldl (fun d p => drawPixel p.1 p.2 d) d

/-- The cells that one sprite byte toggles, left to right. -/
def byteCells (vx : Byte) (y : Fin 32) (b : Byte) : List Cell :=
  ((List.range 8).filter fun c => b.getLsbD (7 - c)).map fun c => (drawColumn vx c, y)

/-- The cells that the sprite rows toggle, the first of them sprite row `r`. -/
def rowCells (vx vy : Byte) : Nat → List Byte → List Cell
  | _, [] => []
  | r, b :: bs => byteCells vx (drawLine vy r) b ++ rowCells vx vy (r + 1) bs

theorem pixel_drawPixel (x z : Fin 64) (y w : Fin 32) (d : Drawing) :
    (drawPixel x y d).1.pixel z w = if z = x ∧ w = y then !d.1.pixel z w else d.1.pixel z w := by
  unfold drawPixel
  rw [pixel_setPixel]
  by_cases h : z = x ∧ w = y
  · obtain ⟨rfl, rfl⟩ := h; rfl
  · simp only [h, if_false]

/-- Toggling distinct cells: each of them is inverted, the others stay. -/
theorem pixel_toggleAll {l : List Cell} (hl : l.Nodup) (d : Drawing) (z : Fin 64) (w : Fin 32) :
    (toggleAll l d).1.pixel z w = if (z, w) ∈ l then !d.1.pixel z w else d.1.pixel z w := by
  induction l generalizing d with
  | nil => simp [toggleAll]
  | cons p l ih =>
    rw [List.nodup_cons] at hl
    show (toggleAll l (drawPixel p.1 p.2 d)).1.pixel z w = _
    rw [ih hl.2, pixel_drawPixel]
    by_cases hp : (z, w) = p
    · subst hp; simp [hl.1]
    · have : ¬(z = p.1 ∧ w = p.2) := fun h => hp (Prod.ext h.1 h.2)
      simp [this, hp]

/-- Toggling distinct cells: a collision is a cell that was on before any of them was toggled. -/
theorem collision_toggleAll {l : List Cell} (hl : l.Nodup) (d : Drawing) :
    (toggleAll l d).2 = true ↔ d.2 = true ∨ ∃ p ∈ l, d.1.pixel p.1 p.2 = true := by
  induction l generalizing d with
  | nil => simp [toggleAll]
  | cons p l ih =>
    rw [List.nodup_cons] at hl
    show (toggleAll l (drawPixel p.1 p.2 d)).2 = true ↔ _
    rw [ih hl.2]
    have hsame : ∀ q ∈ l, (drawPixel p.1 p.2 d).1.pixel q.1 q.2 = d.1.pixel q.1 q.2 := by
      intro q hq
      rw [pixel_drawPixel, if_neg]
      exact fun h => hl.1 (by rwa [show p = q from (Prod.ext h.1 h.2).symm])
    constructor
    · rintro (h | ⟨q, hq, h⟩)
      · simp only [drawPixel, Bool.or_eq_true] at h
        rcases h with h | h
        · exact .inl h
        · exact .inr ⟨p, by simp, h⟩
      · exact .inr ⟨q, List.mem_cons_of_mem _ hq, by rwa [hsame q hq] at h⟩
    · rintro (h | ⟨q, hq, h⟩)
      · exact .inl (by simp [drawPixel, h])
      · rcases List.mem_cons.1 hq with rfl | hq
        · exact .inl (by simp [drawPixel, h])
        · exact .inr ⟨q, hq, by rwa [hsame q hq]⟩

theorem drawByte_eq (vx : Byte) (y : Fin 32) (b : Byte) (d : Drawing) :
    drawByte vx y b d = toggleAll (byteCells vx y b) d := by
  unfold drawByte toggleAll byteCells
  rw [List.foldl_map, List.foldl_filter]

theorem drawRows_eq (vx vy : Byte) (bs : List Byte) (r : Nat) (d : Drawing) :
    drawRows vx vy r bs d = toggleAll (rowCells vx vy r bs) d := by
  induction bs generalizing r d with
  | nil => rfl
  | cons b bs ih =>
    unfold drawRows rowCells toggleAll
    rw [List.foldl_append, ih, drawByte_eq]; rfl

theorem mem_byteCells (vx : Byte) (y : Fin 32) (b : Byte) (p : Cell) :
    p ∈ byteCells vx y b ↔ p.2 = y ∧ ∃ c, c < 8 ∧ b.getLsbD (7 - c) = true ∧ p.1 = drawColumn vx c := by
  unfold byteCells
  simp only [List.mem_map, List.mem_filter, List.mem_range]
  constructor
  · rintro ⟨c, ⟨hc, hb⟩, rfl⟩; exact ⟨rfl, c, hc, hb, rfl⟩
  · rintro ⟨hy, c, hc, hb, hx⟩; exact ⟨c, ⟨hc, hb⟩, Prod.ext hx.symm hy.symm⟩

theorem mem_rowCells (vx vy : Byte) (bs : List Byte) (r : Nat) (p : Cell) :
    p ∈ rowCells vx vy r bs ↔
      ∃ (k : Nat) (hk : k < bs.length), p ∈ byteCells vx (drawLine vy (r + k)) bs[k] := by
  induction bs generalizing r with
  | nil => simp [rowCells]
  | cons b bs ih =>
    rw [rowCells, List.mem_append, ih]
    constructor
    · rintro (h | ⟨k, hk, h⟩)
      · exact ⟨0, by simp, by simpa using h⟩
      · exact ⟨k + 1, by simpa using hk, by simpa [Nat.add_assoc, Nat.add_comm 1 k] using h⟩
    · rintro ⟨k, hk, h⟩
      cases k with
      | zero => exact .inl (by simpa using h)
      | succ k => exact .inr ⟨k, by simpa using hk, by simpa [Nat.add_assoc, Nat.add_comm 1 k] using h⟩

theorem drawColumn_injective (vx : Byte) {c e : Nat} (hc : c < 8) (he : e < 8)
    (h : drawColumn vx c = drawColumn vx e) : c = e := by
  have := congrArg Fin.val h
  simp only [drawColumn, Fin.val_ofNat] at this
  omega

theorem drawLine_injective (vy : Byte) {q r : Nat} (hq : q < r + 32) (hr : r ≤ q)
    (h : drawLine vy q = drawLine vy r) : q = r := by
  have := congrArg Fin.val h
  simp only [drawLine, Fin.val_ofNat] at this
  omega

theorem byteCells_nodup (vx : Byte) (y : Fin 32) (b : Byte) : (byteCells vx y b).Nodup := by
  unfold byteCells
  refine List.Nodup.map_on ?_ (List.nodup_range.filter _)
  intro c hc e he h
  simp only [List.mem_filter, List.mem_range] at hc he
  exact drawColumn_injective vx hc.1 he.1 (Prod.ext_iff.1 h).1

/-- No cell is visited twice by one sprite of at most 32 rows (R177 (e)). -/
theorem rowCells_nodup (vx vy : Byte) (bs : List Byte) (r : Nat) (h : bs.length ≤ 32) :
    (rowCells vx vy r bs).Nodup := by
  induction bs generalizing r with
  | nil => simp [rowCells]
  | cons b bs ih =>
    simp only [List.length_cons] at h
    rw [rowCells, List.nodup_append]
    refine ⟨byteCells_nodup _ _ _, ih _ (by omega), ?_⟩
    rintro p hp q hq rfl
    obtain ⟨k, hk, hq⟩ := (mem_rowCells ..).1 hq
    rw [mem_byteCells] at hp hq
    have := drawLine_injective vy (q := r + 1 + k) (r := r) (by omega) (by omega) (hq.1.symm.trans hp.1)
    omega

theorem length_readBlock (m : Memory) (a n : Nat) : (m.readBlock a n).length = n := by simp [Memory.readBlock]

theorem getElem_readBlock (m : Memory) (a n k : Nat) (h : k < (m.readBlock a n).length) :
    (m.readBlock a n)[k] = m.read (a + k) := by simp [Memory.readBlock]

/-- The cells that `DXYN` toggles. -/
def State.spriteCells (s : State) (x y : Reg) (n : Nat) : List Cell :=
  rowCells (s.getV x) (s.getV y) 0 (s.mem.readBlock s.i.toNat n)

/-- The drawing of `DXYN` is the toggling of its cells. -/
theorem drawing_eq (s : State) (x y : Reg) (n : Nat) :
    s.drawing x y n = toggleAll (s.spriteCells x y n) (s.fb, false) := drawRows_eq _ _ _ _ _

theorem spriteCells_nodup (s : State) (x y : Reg) {n : Nat} (h : n ≤ 32) : (s.spriteCells x y n).Nodup :=
  rowCells_nodup _ _ _ _ (by rw [length_readBlock]; exact h)

end Sys2Proof.Machine
end

