-- ==== Sys2Proof/Laws/Encoding.lean ====
section
/-! SUPPORT. The fields of a packed word, a word from its fields, and its two bytes. -/

namespace Sys2Proof

variable (h n : BitVec 4) (x y : Reg) (nn : Byte) (nnn : BitVec 12) (w : Word)

/-! ## As numbers -/

theorem append_toNat {a b : Nat} (u : BitVec a) (v : BitVec b) : (u ++ v).toNat = u.toNat * 2 ^ b + v.toNat := by
  rw [BitVec.toNat_append, ← Nat.shiftLeft_add_eq_or_of_lt v.isLt, Nat.shiftLeft_eq]

theorem packNNN_toNat : (packNNN h nnn).toNat = h.toNat * 4096 + nnn.toNat := append_toNat h nnn

theorem packXNN_toNat : (packXNN h x nn).toNat = h.toNat * 4096 + x.val * 256 + nn.toNat := by
  unfold packXNN
  rw [append_toNat, append_toNat, show (BitVec.ofFin (w := 4) x).toNat = x.val from rfl]
  omega

theorem packXYN_toNat :
    (packXYN h x y n).toNat = h.toNat * 4096 + x.val * 256 + y.val * 16 + n.toNat := by
  unfold packXYN
  rw [append_toNat, append_toNat, append_toNat, show (BitVec.ofFin (w := 4) x).toNat = x.val from rfl,
    show (BitVec.ofFin (w := 4) y).toNat = y.val from rfl]
  omega

theorem op_toNat : w.op.toNat = w.toNat / 4096 := by
  have := w.isLt
  simp only [Word.op, BitVec.extractLsb_toNat, Nat.shiftRight_eq_div_pow]; omega

theorem x_val : w.x.val = w.toNat / 256 % 16 := by
  show (w.extractLsb 11 8).toNat = _
  simp only [BitVec.extractLsb_toNat, Nat.shiftRight_eq_div_pow]

theorem y_val : w.y.val = w.toNat / 16 % 16 := by
  show (w.extractLsb 7 4).toNat = _
  simp only [BitVec.extractLsb_toNat, Nat.shiftRight_eq_div_pow]

theorem n_toNat : w.n.toNat = w.toNat % 16 := by
  simp only [Word.n, BitVec.extractLsb_toNat, Nat.shiftRight_eq_div_pow, pow_zero, Nat.div_one]

theorem nn_toNat : w.nn.toNat = w.toNat % 256 := by
  simp only [Word.nn, BitVec.extractLsb_toNat, Nat.shiftRight_eq_div_pow]; omega

theorem nnn_toNat : w.nnn.toNat = w.toNat % 4096 := by
  simp only [Word.nnn, BitVec.extractLsb_toNat, Nat.shiftRight_eq_div_pow]; omega

/-! ## The fields of a packed word -/

@[simp] theorem op_packNNN : (packNNN h nnn).op = h := by
  apply BitVec.eq_of_toNat_eq
  rw [op_toNat, packNNN_toNat]; have := nnn.isLt; omega

@[simp] theorem nnn_packNNN : (packNNN h nnn).nnn = nnn := by
  apply BitVec.eq_of_toNat_eq
  rw [nnn_toNat, packNNN_toNat]; have := nnn.isLt; omega

@[simp] theorem op_packXNN : (packXNN h x nn).op = h := by
  apply BitVec.eq_of_toNat_eq
  rw [op_toNat, packXNN_toNat]; have := nn.isLt; omega

@[simp] theorem x_packXNN : (packXNN h x nn).x = x := by
  apply Fin.ext
  rw [x_val, packXNN_toNat]; have := nn.isLt; omega

@[simp] theorem nn_packXNN : (packXNN h x nn).nn = nn := by
  apply BitVec.eq_of_toNat_eq
  rw [nn_toNat, packXNN_toNat]; have := nn.isLt; omega

@[simp] theorem op_packXYN : (packXYN h x y n).op = h := by
  apply BitVec.eq_of_toNat_eq
  rw [op_toNat, packXYN_toNat]; have := n.isLt; omega

@[simp] theorem x_packXYN : (packXYN h x y n).x = x := by
  apply Fin.ext
  rw [x_val, packXYN_toNat]; have := n.isLt; omega

@[simp] theorem y_packXYN : (packXYN h x y n).y = y := by
  apply Fin.ext
  rw [y_val, packXYN_toNat]; have := n.isLt; omega

@[simp] theorem n_packXYN : (packXYN h x y n).n = n := by
  apply BitVec.eq_of_toNat_eq
  rw [n_toNat, packXYN_toNat]; have := n.isLt; omega

/-! ## A word from its fields -/

theorem packNNN_fields : packNNN w.op w.nnn = w := by
  apply BitVec.eq_of_toNat_eq
  rw [packNNN_toNat, op_toNat, nnn_toNat]; omega

theorem packXNN_fields : packXNN w.op w.x w.nn = w := by
  apply BitVec.eq_of_toNat_eq
  rw [packXNN_toNat, op_toNat, x_val, nn_toNat]; omega

theorem packXYN_fields : packXYN w.op w.x w.y w.n = w := by
  apply BitVec.eq_of_toNat_eq
  rw [packXYN_toNat, op_toNat, x_val, y_val, n_toNat]; omega

/-! ## Two bytes and a word (R65) -/

theorem wordOfBytes_toNat (hi lo : Byte) : (wordOfBytes hi lo).toNat = 256 * hi.toNat + lo.toNat := by
  unfold wordOfBytes; rw [append_toNat]; omega

@[simp] theorem wordOfBytes_hiByte_loByte : wordOfBytes w.hiByte w.loByte = w := by
  apply BitVec.eq_of_toNat_eq
  rw [wordOfBytes_toNat]
  have := w.isLt
  simp only [Word.hiByte, Word.loByte, BitVec.extractLsb_toNat, Nat.shiftRight_eq_div_pow]; omega

/-! ## The families whose sub-opcode is examined -/

/-- A word is one of family `h` when its `op` is `h`; used to rebuild the word from its other fields. -/
theorem packXNN_of_op {h : BitVec 4} {nn : Byte} {w : Word} (ho : w.op = h) (hn : w.nn = nn) :
    packXNN h w.x nn = w := by rw [← ho, ← hn]; exact packXNN_fields w

theorem packXYN_of_op {h n : BitVec 4} {w : Word} (ho : w.op = h) (hn : w.n = n) :
    packXYN h w.x w.y n = w := by rw [← ho, ← hn]; exact packXYN_fields w

end Sys2Proof
end

