-- ==== Sys2Proof/Laws/Frames.lean ====
section
/-! SUPPORT. Frames: which pieces of state each shared operation leaves alone, and how frames compose. -/

namespace Sys2Proof.Machine

theorem Unchanged.refl (s : State) (f : Field) : Unchanged s s f := by
  cases f <;> simp [Unchanged]

theorem Unchanged.trans {s t u : State} {f : Field} (h : Unchanged s t f) (k : Unchanged t u f) :
    Unchanged s u f := by
  cases f <;> simp only [Unchanged] at h k ⊢
  case v => exact fun z => (k z).trans (h z)
  case mem => exact fun a => (k a).trans (h a)
  case fb => exact fun x y => (k x y).trans (h x y)
  case fault => exact ⟨k.1.trans h.1, k.2.1.trans h.2.1, k.2.2.1.trans h.2.2.1, k.2.2.2.trans h.2.2.2⟩
  case diag => exact ⟨k.1.trans h.1, k.2.1.trans h.2.1, k.2.2.1.trans h.2.2.1, k.2.2.2.trans h.2.2.2⟩
  case inputs => exact ⟨k.1.trans h.1, k.2.1.trans h.2.1, k.2.2.1.trans h.2.2.1, k.2.2.2.trans h.2.2.2⟩
  all_goals exact k.trans h

theorem OnlyChanges.refl (fs : List Field) (s : State) : OnlyChanges fs s s := fun f _ => .refl s f

theorem OnlyChanges.trans {fs : List Field} {s t u : State} (h : OnlyChanges fs s t) (k : OnlyChanges fs t u) :
    OnlyChanges fs s u := fun f hf => (h f hf).trans (k f hf)

/-- A frame may be widened. -/
theorem OnlyChanges.mono {fs gs : List Field} {s t : State} (h : OnlyChanges fs s t) (hs : ∀ f ∈ fs, f ∈ gs) :
    OnlyChanges gs s t := fun f hf => h f fun hm => hf (hs f hm)

variable (s : State)

theorem onlyChanges_setV (x : Reg) (b : Byte) : OnlyChanges [.v] s (s.setV x b) := by
  intro f hf; cases f <;> simp [Unchanged] at hf ⊢

theorem onlyChanges_setI (a : Word) : OnlyChanges [.i] s (s.setI a) := by
  intro f hf; cases f <;> simp [Unchanged] at hf ⊢

theorem onlyChanges_stepI (x : Reg) : OnlyChanges [.i] s (s.stepI x) := onlyChanges_setI s _

theorem onlyChanges_jump (a : Word) : OnlyChanges [.pc] s (s.jump a) := by
  intro f hf; cases f <;> simp [Unchanged] at hf ⊢

theorem onlyChanges_advance : OnlyChanges [.pc] s s.advance := by
  intro f hf; cases f <;> simp [Unchanged] at hf ⊢

theorem onlyChanges_skipIf (c : Bool) : OnlyChanges [.pc] s (s.skipIf c) := by
  cases c
  · exact .refl _ s
  · exact onlyChanges_advance s

theorem onlyChanges_setResultFlag (x : Reg) (r : Byte) (f : Bool) :
    OnlyChanges [.v] s (s.setResultFlag x r f) :=
  (onlyChanges_setV s x r).trans (onlyChanges_setV _ _ _)

theorem onlyChanges_raiseFatal (c : Cause) (pc word : Option Word) :
    OnlyChanges [.fault, .result] s (s.raiseFatal c pc word) := by
  intro f hf; cases f <;> simp [Unchanged] at hf ⊢

theorem onlyChanges_raiseDiagnostic (d : Diagnostic) (pc word : Word) :
    OnlyChanges [.diag, .result] s (s.raiseDiagnostic d pc word) := by
  intro f hf; cases f <;> simp [Unchanged] at hf ⊢

theorem onlyChanges_refuse : OnlyChanges [.result] s s.refuse := by
  intro f hf; cases f <;> simp [Unchanged] at hf ⊢; exact fun z => rfl

theorem onlyChanges_sample (keys : BitVec 16) (rnd : Byte) :
    OnlyChanges [.inputs, .result] s (s.sample keys rnd) := by
  intro f hf; cases f <;> simp [Unchanged] at hf ⊢; exact fun z => rfl

theorem onlyChanges_settleFrac : OnlyChanges [.frac] s s.settleFrac := by
  intro f hf; cases f <;> simp [Unchanged] at hf ⊢

theorem onlyChanges_timerUpdate (e : Elapsed) : OnlyChanges [.dt, .st, .frac] s (s.timerUpdate e) := by
  intro f hf; cases f <;> simp [Unchanged, State.timerUpdate] at hf ⊢; exact fun z => rfl

theorem onlyChanges_mem (m : Memory) : OnlyChanges [.mem] s { s with mem := m } := by
  intro f hf; cases f <;> simp [Unchanged] at hf ⊢; exact fun z => rfl

theorem onlyChanges_fb (g : FrameBuffer) : OnlyChanges [.fb] s { s with fb := g } := by
  intro f hf; cases f <;> simp [Unchanged] at hf ⊢; exact fun z => rfl

/-! ## Which registers a write leaves alone -/

theorem regsKept_setV (x : Reg) (b : Byte) : RegsKept [x] s (s.setV x b) := by
  intro z hz; exact getV_setV_ne _ _ (by simpa using hz)

theorem regsKept_setResultFlag (x : Reg) (r : Byte) (f : Bool) :
    RegsKept [x, Reg.vf] s (s.setResultFlag x r f) := by
  intro z hz; rw [getV_setResultFlag]; simp at hz; simp [hz]

/-- The destination holds the result, unless it is VF (R161). -/
theorem setResultFlag_result {x : Reg} (r : Byte) (f : Bool) (hx : x ≠ Reg.vf) :
    (s.setResultFlag x r f).getV x = r := by
  rw [getV_setResultFlag]; simp [hx]

/-- VF holds the flag, whatever the destination (R161). -/
theorem setResultFlag_vf (x : Reg) (r : Byte) (f : Bool) : (s.setResultFlag x r f).getV Reg.vf = flag f := by
  rw [getV_setResultFlag]; simp

theorem flag_toNat (f : Bool) : (flag f).toNat = if f then 1 else 0 := by cases f <;> rfl

/-! ## Raising a condition -/

/-- Raised in execute, a fatal condition is `HaltedBy` (R240). -/
theorem haltedBy_raiseInExec (c : Cause) (i : Instr) : HaltedBy c (encode i) s (s.raiseInExec c i) :=
  ⟨rfl, rfl, rfl, rfl, rfl, onlyChanges_raiseFatal s _ _ _⟩

end Sys2Proof.Machine
end

