-- ==== Sys2Proof/Laws/Timers.lean ====
section
/-! SUPPORT. The timer unit (spec/60_exceptions.md R250): the amount owed as whole counts and a fraction. -/

namespace Sys2Proof.Machine

variable (s : State)

theorem seconds_nonneg (e : Elapsed) : 0 ≤ Elapsed.seconds e := by unfold Elapsed.seconds; positivity

theorem owed_eq (e : Elapsed) : s.owed e = 60 * Elapsed.seconds e + s.frac := rfl

/-- Every amount owed is whole counts and a fraction below one. -/
theorem exists_counts {a : Rat} (h : 0 ≤ a) : ∃ (k : Nat) (f : Rat), a = k + f ∧ 0 ≤ f ∧ f < 1 := by
  have h0 : (0 : Int) ≤ ⌊a⌋ := Int.floor_nonneg.2 h
  have h1 : ((⌊a⌋.toNat : Nat) : Rat) = ((⌊a⌋ : Int) : Rat) := by
    exact_mod_cast congrArg (Int.cast (R := Rat)) (Int.toNat_of_nonneg h0)
  refine ⟨⌊a⌋.toNat, a - ⌊a⌋, by rw [h1]; ring, ?_, ?_⟩
  · linarith [Int.floor_le a]
  · linarith [Int.lt_floor_add_one a]

/-- The whole counts are the floor. -/
theorem floor_of_counts {a f : Rat} {k : Nat} (h : a = k + f) (h0 : 0 ≤ f) (h1 : f < 1) : a.floor.toNat = k := by
  have : a.floor = (k : Int) := by
    rw [show a.floor = ⌊a⌋ from rfl, Int.floor_eq_iff]; push_cast; constructor <;> linarith
  rw [this]; rfl

/-- What an update does, from the whole counts `k` and the fraction `f` of the amount owed. -/
theorem timerUpdate_of_counts {e : Elapsed} {k : Nat} {f : Rat} (h : s.owed e = k + f) (h0 : 0 ≤ f) (h1 : f < 1) :
    s.timerUpdate e = ({ s with dt := decay s.dt k, st := decay s.st k, frac := f } : State).settleFrac := by
  unfold State.timerUpdate; simp only; rw [floor_of_counts h h0 h1, h]
  congr 2; ring

theorem decay_eq_zero (t : Byte) (k : Nat) : decay t k = 0 ↔ t.toNat ≤ k := by
  rw [← BitVec.toNat_inj, decay_toNat]; simp; omega

theorem decay_decay (t : Byte) (k j : Nat) : decay (decay t k) j = decay t (k + j) := by
  apply BitVec.eq_of_toNat_eq; simp only [decay_toNat]; omega

end Sys2Proof.Machine
end

