-- ==== Sys2Proof/Laws/Exec.lean ====
section
/-! SUPPORT. What a step can be, said once: the event it handles; and the block transfers of FX55 and FX65. -/

namespace Sys2Proof.Machine

variable (s : State)

/-! ## Events -/

theorem step_of_event {e : Event} {rest : List Event} (h : s.io.events = e :: rest) :
    step s = { s with io := { s.io with events := rest } }.handle e := by
  simp [step, State.nextEvent, h]

theorem step_of_empty (h : s.io.events = []) : step s = s.freeHost := by
  simp [step, State.nextEvent, h]

theorem cycle_of_run (keys : BitVec 16) (rnd : Byte) (h : s.phase = .run) :
    s.cycle keys rnd = (s.sample keys rnd).runCycle := by simp [State.cycle, h]

theorem cycle_of_not_run (keys : BitVec 16) (rnd : Byte) (h : s.phase ≠ .run) :
    s.cycle keys rnd = .next s.refuse := by
  unfold State.cycle; split
  · contradiction
  · rfl
  · rfl

theorem runCycle_of_fetchable (h : s.pc.toNat ≤ 0xFFE) :
    s.runCycle = execDecoded (decode s.fetchWord) s.advance := by
  simp [State.runCycle, State.fetchable, h]

theorem runCycle_of_outside (h : 0xFFE < s.pc.toNat) :
    s.runCycle = .next (s.raiseFatal .outOfBoundsFetch (some s.pc) none) := by
  have : ¬s.pc.toNat ≤ 0xFFE := by omega
  simp [State.runCycle, State.fetchable, this]

/-! ## The timers do not look at the interface, and a new interface is no change of the timers -/

theorem settleFrac_io (x : Io) : ({ s with io := x } : State).settleFrac = { s.settleFrac with io := x } := by
  unfold State.settleFrac; split_ifs <;> rfl

theorem timerUpdate_io (x : Io) (e : Elapsed) :
    ({ s with io := x } : State).timerUpdate e = { s.timerUpdate e with io := x } :=
  settleFrac_io { s with dt := decay s.dt _, st := decay s.st _, frac := _ } x

/-! ## Block transfers -/

theorem length_firstRegs (x : Reg) : (s.firstRegs x).length = x.val + 1 := by
  simp [State.firstRegs]

theorem getElem_firstRegs (x : Reg) (k : Reg) (hk : k ≤ x) :
    (s.firstRegs x)[k.val]'(by rw [length_firstRegs]; exact Nat.lt_succ_of_le hk) = s.getV k := by
  simp [State.firstRegs, Reg.getElem_upTo]

theorem loadFrom_aux (ks : List Reg) (t : State) :
    let u := ks.foldl (fun t k => t.setV k (s.mem.read (s.i.toNat + k.val))) t
    (∀ z, u.getV z = if z ∈ ks then s.mem.read (s.i.toNat + z.val) else t.getV z) ∧ u = { t with v := u.v } := by
  induction ks generalizing t with
  | nil => exact ⟨fun z => by simp, rfl⟩
  | cons k ks ih =>
    obtain ⟨h1, h2⟩ := ih (t.setV k (s.mem.read (s.i.toNat + k.val)))
    refine ⟨fun z => ?_, ?_⟩
    · simp only [List.foldl_cons, h1, getV_setV, List.mem_cons]
      by_cases hz : z ∈ ks
      · simp [hz]
      · by_cases hk : z = k
        · subst hk; simp [hz]
        · simp [hz, hk]
    · simp only [List.foldl_cons]; exact h2

/-- Loading a block writes the listed registers and nothing else. -/
theorem getV_loadFrom (ks : List Reg) (z : Reg) :
    (s.loadFrom ks).getV z = if z ∈ ks then s.mem.read (s.i.toNat + z.val) else s.getV z :=
  (loadFrom_aux s ks s).1 z

theorem loadFrom_eq (ks : List Reg) : s.loadFrom ks = { s with v := (s.loadFrom ks).v } := (loadFrom_aux s ks s).2

theorem onlyChanges_loadFrom (ks : List Reg) : OnlyChanges [.v] s (s.loadFrom ks) := by
  rw [loadFrom_eq]
  intro f hf; cases f <;> simp [Unchanged] at hf ⊢

/-! ## Data accesses, all or nothing (R72) -/

/-- The frame of a data access: what the access itself may change, or what a fatal condition writes. -/
theorem onlyChanges_withData (i : Instr) (n : Nat) {t : State} {fs : List Field} (h : OnlyChanges fs s t)
    (hf : .fault ∈ fs) (hr : .result ∈ fs) : OnlyChanges fs s (s.withData i n t) := by
  unfold State.withData; split
  · exact h
  · exact (onlyChanges_raiseFatal s _ _ _).mono (by simp [hf, hr])

theorem getV_withData (i : Instr) (n : Nat) {t : State} {z : Reg} (h : t.getV z = s.getV z) :
    (s.withData i n t).getV z = s.getV z := by
  unfold State.withData; split
  · exact h
  · rfl

theorem withData_mem_wf (i : Instr) (n : Nat) {t : State} (hs : s.mem.wf) (ht : t.mem.wf) :
    (s.withData i n t).mem.wf := by
  unfold State.withData; split
  · exact ht
  · exact hs

/-! ## The cells of a sprite (R176, R177) -/

theorem mem_spriteCells (x y : Reg) (n : Nat) (px : Fin 64) (py : Fin 32) :
    (px, py) ∈ s.spriteCells x y n ↔ SpriteCovers s x y n px py := by
  unfold State.spriteCells SpriteCovers
  rw [mem_rowCells]
  constructor
  · rintro ⟨k, hk, h⟩
    rw [mem_byteCells] at h
    obtain ⟨hy, c, hc, hb, hx⟩ := h
    rw [length_readBlock] at hk
    rw [getElem_readBlock] at hb
    refine ⟨k, c, hk, hc, hb, ?_, ?_⟩
    · simpa [drawColumn] using congrArg Fin.val hx
    · simpa [drawLine] using congrArg Fin.val hy
  · rintro ⟨r, c, hr, hc, hb, hx, hy⟩
    refine ⟨r, by rwa [length_readBlock], ?_⟩
    rw [mem_byteCells]
    exact ⟨Fin.ext (by simpa [drawLine] using hy), c, hc, by rwa [getElem_readBlock],
      Fin.ext (by simpa [drawColumn] using hx)⟩

/-! ## Shared operations and a new interface -/

theorem pop_io (x : Io) :
    ({ s with io := x } : State).pop = s.pop.map fun p => (p.1, { p.2 with io := x }) := by
  unfold State.pop; split <;> simp_all

theorem push_io (w : Word) (x : Io) :
    ({ s with io := x } : State).push w = (s.push w).map fun p => { p with io := x } := by
  unfold State.push; split <;> simp_all

theorem io_of_pop {s t : State} {w : Word} (h : s.pop = some (w, t)) : t.io = s.io := by
  unfold State.pop at h; split at h <;> cases h; rfl

theorem io_of_push {s t : State} {w : Word} (h : s.push w = some t) : t.io = s.io := by
  unfold State.push at h; split at h <;> cases h; rfl

theorem loadFrom_io (ks : List Reg) (x : Io) :
    ({ s with io := x } : State).loadFrom ks = { s.loadFrom ks with io := x } := by
  have key : ∀ ks : List Reg, ∀ t : State,
      ks.foldl (fun t k => t.setV k (s.mem.read (s.i.toNat + k.val))) { t with io := x } =
        { ks.foldl (fun t k => t.setV k (s.mem.read (s.i.toNat + k.val))) t with io := x } := by
    intro ks; induction ks with
    | nil => intro t; rfl
    | cons k ks ih => intro t; exact ih (t.setV k _)
  exact key ks s

end Sys2Proof.Machine
end

