-- ==== Sys2Proof/Laws/PerInstr.lean ====
section
/-! SUPPORT. Statements made instruction by instruction (LAWS.json). `RowBits`: the word of an instruction has the
fixed bits of its row of spec/30_encoding.md R96, `encode i & mask = match`; mask and match are written here from
the table's column, apart from the packing of Decode.lean. -/

namespace Sys2Proof

/-- The row of R96 (match / mask column) that an instruction belongs to. -/
def rowOf : Instr → OpcodeRow
  | .cls => ⟨0xFFFF, 0x00E0⟩
  | .ret => ⟨0xFFFF, 0x00EE⟩
  | .jp _ => ⟨0xF000, 0x1000⟩
  | .call _ => ⟨0xF000, 0x2000⟩
  | .seImm _ _ => ⟨0xF000, 0x3000⟩
  | .sneImm _ _ => ⟨0xF000, 0x4000⟩
  | .seReg _ _ => ⟨0xF00F, 0x5000⟩
  | .ldImm _ _ => ⟨0xF000, 0x6000⟩
  | .addImm _ _ => ⟨0xF000, 0x7000⟩
  | .ldReg _ _ => ⟨0xF00F, 0x8000⟩
  | .orReg _ _ => ⟨0xF00F, 0x8001⟩
  | .andReg _ _ => ⟨0xF00F, 0x8002⟩
  | .xorReg _ _ => ⟨0xF00F, 0x8003⟩
  | .addReg _ _ => ⟨0xF00F, 0x8004⟩
  | .subReg _ _ => ⟨0xF00F, 0x8005⟩
  | .shrReg _ _ => ⟨0xF00F, 0x8006⟩
  | .subnReg _ _ => ⟨0xF00F, 0x8007⟩
  | .shlReg _ _ => ⟨0xF00F, 0x800E⟩
  | .sneReg _ _ => ⟨0xF00F, 0x9000⟩
  | .ldI _ => ⟨0xF000, 0xA000⟩
  | .jpV0 _ => ⟨0xF000, 0xB000⟩
  | .rnd _ _ => ⟨0xF000, 0xC000⟩
  | .drw _ _ _ => ⟨0xF000, 0xD000⟩
  | .skp _ => ⟨0xF0FF, 0xE09E⟩
  | .sknp _ => ⟨0xF0FF, 0xE0A1⟩
  | .ldVxDt _ => ⟨0xF0FF, 0xF007⟩
  | .ldVxK _ => ⟨0xF0FF, 0xF00A⟩
  | .ldDtVx _ => ⟨0xF0FF, 0xF015⟩
  | .ldStVx _ => ⟨0xF0FF, 0xF018⟩
  | .addI _ => ⟨0xF0FF, 0xF01E⟩
  | .ldF _ => ⟨0xF0FF, 0xF029⟩
  | .ldB _ => ⟨0xF0FF, 0xF033⟩
  | .storeRegs _ => ⟨0xF0FF, 0xF055⟩
  | .loadRegs _ => ⟨0xF0FF, 0xF065⟩

/-- The AND of two words of one format is the AND of their fields. -/
theorem packNNN_and (h a : BitVec 4) (nnn b : BitVec 12) :
    packNNN h nnn &&& (a ++ b) = packNNN (h &&& a) (nnn &&& b) := by
  unfold packNNN; exact BitVec.and_append ..

theorem packXNN_and (h a b : BitVec 4) (x : Reg) (nn c : Byte) :
    packXNN h x nn &&& (a ++ b ++ c) = (h &&& a) ++ (BitVec.ofFin (w := 4) x &&& b) ++ (nn &&& c) := by
  unfold packXNN; rw [BitVec.and_append, BitVec.and_append]

theorem packXYN_and (h a b c d n : BitVec 4) (x y : Reg) :
    packXYN h x y n &&& (a ++ b ++ c ++ d) =
      (h &&& a) ++ (BitVec.ofFin (w := 4) x &&& b) ++ (BitVec.ofFin (w := 4) y &&& c) ++ (n &&& d) := by
  unfold packXYN
  rw [BitVec.and_append, BitVec.and_append, BitVec.and_append]

/-- Format NNN keeps its family under the mask `0xF000`. -/
theorem packNNN_mask (h : BitVec 4) (nnn : BitVec 12) : packNNN h nnn &&& 0xF000 = h ++ 0#12 := by
  rw [show (0xF000 : Word) = 0xF#4 ++ 0#12 from rfl, packNNN_and, BitVec.and_zero]
  unfold packNNN; revert h; decide

/-- Format XNN keeps its family under the mask `0xF000`. -/
theorem packXNN_mask (h : BitVec 4) (x : Reg) (nn : Byte) : packXNN h x nn &&& 0xF000 = h ++ 0#12 := by
  rw [show (0xF000 : Word) = 0xF#4 ++ 0#4 ++ 0#8 from rfl, packXNN_and, BitVec.and_zero, BitVec.and_zero]
  revert h; decide

/-- Format X keeps its family and its byte under the mask `0xF0FF`. -/
theorem packX_mask (h : BitVec 4) (x : Reg) (nn : Byte) : packXNN h x nn &&& 0xF0FF = h ++ 0#4 ++ nn := by
  rw [show (0xF0FF : Word) = 0xF#4 ++ 0#4 ++ 0xFF#8 from rfl, packXNN_and, BitVec.and_zero,
    show (0xFF#8 : Byte) = BitVec.allOnes 8 from rfl, BitVec.and_allOnes,
    show (0xF#4 : BitVec 4) = BitVec.allOnes 4 from rfl, BitVec.and_allOnes]

/-- Format XYN keeps its family under the mask `0xF000`. -/
theorem packXYN_mask (h n : BitVec 4) (x y : Reg) : packXYN h x y n &&& 0xF000 = h ++ 0#12 := by
  rw [show (0xF000 : Word) = 0xF#4 ++ 0#4 ++ 0#4 ++ 0#4 from rfl, packXYN_and, BitVec.and_zero, BitVec.and_zero,
    BitVec.and_zero]
  revert h; decide

/-- Format XY keeps its family and its low nibble under the mask `0xF00F`. -/
theorem packXY_mask (h n : BitVec 4) (x y : Reg) : packXYN h x y n &&& 0xF00F = h ++ 0#8 ++ n := by
  rw [show (0xF00F : Word) = 0xF#4 ++ 0#4 ++ 0#4 ++ 0xF#4 from rfl, packXYN_and, BitVec.and_zero, BitVec.and_zero,
    show (0xF#4 : BitVec 4) = BitVec.allOnes 4 from rfl, BitVec.and_allOnes, BitVec.and_allOnes]
  revert h; revert n; decide

/-- The family of statements: the instruction's word lies in the instruction's row. -/
def Laws.RowBits.Statement (i : Instr) : Prop := encode i &&& (rowOf i).mask = (rowOf i).pattern

namespace Laws.RowBits

theorem cls : Statement .cls := rfl
theorem ret : Statement .ret := rfl
theorem jp (nnn : BitVec 12) : Statement (.jp nnn) := packNNN_mask ..
theorem call (nnn : BitVec 12) : Statement (.call nnn) := packNNN_mask ..
theorem seImm (x : Reg) (nn : Byte) : Statement (.seImm x nn) := packXNN_mask ..
theorem sneImm (x : Reg) (nn : Byte) : Statement (.sneImm x nn) := packXNN_mask ..
theorem seReg (x y : Reg) : Statement (.seReg x y) := packXY_mask ..
theorem ldImm (x : Reg) (nn : Byte) : Statement (.ldImm x nn) := packXNN_mask ..
theorem addImm (x : Reg) (nn : Byte) : Statement (.addImm x nn) := packXNN_mask ..
theorem ldReg (x y : Reg) : Statement (.ldReg x y) := packXY_mask ..
theorem orReg (x y : Reg) : Statement (.orReg x y) := packXY_mask ..
theorem andReg (x y : Reg) : Statement (.andReg x y) := packXY_mask ..
theorem xorReg (x y : Reg) : Statement (.xorReg x y) := packXY_mask ..
theorem addReg (x y : Reg) : Statement (.addReg x y) := packXY_mask ..
theorem subReg (x y : Reg) : Statement (.subReg x y) := packXY_mask ..
theorem shrReg (x y : Reg) : Statement (.shrReg x y) := packXY_mask ..
theorem subnReg (x y : Reg) : Statement (.subnReg x y) := packXY_mask ..
theorem shlReg (x y : Reg) : Statement (.shlReg x y) := packXY_mask ..
theorem sneReg (x y : Reg) : Statement (.sneReg x y) := packXY_mask ..
theorem ldI (nnn : BitVec 12) : Statement (.ldI nnn) := packNNN_mask ..
theorem jpV0 (nnn : BitVec 12) : Statement (.jpV0 nnn) := packNNN_mask ..
theorem rnd (x : Reg) (nn : Byte) : Statement (.rnd x nn) := packXNN_mask ..
theorem drw (x y : Reg) (n : BitVec 4) : Statement (.drw x y n) := packXYN_mask ..
theorem skp (x : Reg) : Statement (.skp x) := packX_mask ..
theorem sknp (x : Reg) : Statement (.sknp x) := packX_mask ..
theorem ldVxDt (x : Reg) : Statement (.ldVxDt x) := packX_mask ..
theorem ldVxK (x : Reg) : Statement (.ldVxK x) := packX_mask ..
theorem ldDtVx (x : Reg) : Statement (.ldDtVx x) := packX_mask ..
theorem ldStVx (x : Reg) : Statement (.ldStVx x) := packX_mask ..
theorem addI (x : Reg) : Statement (.addI x) := packX_mask ..
theorem ldF (x : Reg) : Statement (.ldF x) := packX_mask ..
theorem ldB (x : Reg) : Statement (.ldB x) := packX_mask ..
theorem storeRegs (x : Reg) : Statement (.storeRegs x) := packX_mask ..
theorem loadRegs (x : Reg) : Statement (.loadRegs x) := packX_mask ..

end Laws.RowBits

end Sys2Proof
end

