-- ==== Sys2Proof/Tests/Slice0.lean ====
section
/-! SUPPORT. Tests: words written out from spec/30_encoding.md, single steps from spec/95_test_vectors.md (each test names
its vector), and for every statement with hypotheses a witness that meets them. -/

namespace Sys2Proof.Tests

open Sys2Proof.Machine

/-! ## Decoding: words written out bit by bit from R92 and R96 -/

theorem test_decode_system : decode 0b0000000011100000 = .instr .cls ∧ decode 0b0000000011101110 = .instr .ret := by
  decide

theorem test_decode_jumps : decode 0b0001111111111110 = .instr (.jp 0xFFE) ∧
    decode 0b0010101010111100 = .instr (.call 0xABC) ∧ decode 0b1011000100100011 = .instr (.jpV0 0x123) := by decide

theorem test_decode_skips : decode 0b0011101001111111 = .instr (.seImm 0xA 0x7F) ∧
    decode 0b0100101001111111 = .instr (.sneImm 0xA 0x7F) ∧ decode 0b0101101010110000 = .instr (.seReg 0xA 0xB) ∧
    decode 0b1001101010110000 = .instr (.sneReg 0xA 0xB) := by decide

theorem test_decode_immediates : decode 0b0110010100000010 = .instr (.ldImm 5 2) ∧
    decode 0b0111000011111110 = .instr (.addImm 0 0xFE) ∧ decode 0b1010111111111110 = .instr (.ldI 0xFFE) := by decide

theorem test_decode_logic : decode 0b1000101010110000 = .instr (.ldReg 0xA 0xB) ∧
    decode 0b1000101010110001 = .instr (.orReg 0xA 0xB) ∧ decode 0b1000101010110010 = .instr (.andReg 0xA 0xB) ∧
    decode 0b1000101010110011 = .instr (.xorReg 0xA 0xB) := by decide

theorem test_decode_arithmetic : decode 0b1000101010110100 = .instr (.addReg 0xA 0xB) ∧
    decode 0b1000101010110101 = .instr (.subReg 0xA 0xB) ∧ decode 0b1000101010110110 = .instr (.shrReg 0xA 0xB) ∧
    decode 0b1000101010110111 = .instr (.subnReg 0xA 0xB) ∧ decode 0b1000101010111110 = .instr (.shlReg 0xA 0xB) := by
  decide

theorem test_decode_random_draw : decode 0b1100001111110000 = .instr (.rnd 3 0xF0) ∧
    decode 0b1101000100100011 = .instr (.drw 1 2 3) := by decide

theorem test_decode_keypad : decode 0b1110000110011110 = .instr (.skp 1) ∧
    decode 0b1110000110100001 = .instr (.sknp 1) ∧ decode 0b1111000100001010 = .instr (.ldVxK 1) := by decide

theorem test_decode_timers : decode 0b1111000100000111 = .instr (.ldVxDt 1) ∧
    decode 0b1111000100010101 = .instr (.ldDtVx 1) ∧ decode 0b1111000100011000 = .instr (.ldStVx 1) := by decide

theorem test_decode_index : decode 0b1111000100011110 = .instr (.addI 1) ∧
    decode 0b1111000100101001 = .instr (.ldF 1) ∧ decode 0b1111000100110011 = .instr (.ldB 1) ∧
    decode 0b1111000101010101 = .instr (.storeRegs 1) ∧ decode 0b1111000101100101 = .instr (.loadRegs 1) := by decide

/-- UNKNOWN words of spec/95_test_vectors.md section 4, next to an instruction of their family. -/
theorem test_decode_unknown_low : decode 0x0000 = .unknown 0x0000 ∧ decode 0x00E1 = .unknown 0x00E1 ∧
    decode 0x0FFF = .unknown 0x0FFF ∧ decode 0x5AB1 = .unknown 0x5AB1 ∧ decode 0x8AB8 = .unknown 0x8AB8 ∧
    decode 0x8ABF = .unknown 0x8ABF ∧ decode 0x9AB8 = .unknown 0x9AB8 := by decide

theorem test_decode_unknown_high : decode 0xE19F = .unknown 0xE19F ∧ decode 0xE0A0 = .unknown 0xE0A0 ∧
    decode 0xF100 = .unknown 0xF100 ∧ decode 0xF175 = .unknown 0xF175 ∧ decode 0xF130 = .unknown 0xF130 ∧
    decode 0xFFFF = .unknown 0xFFFF := by decide

/-- R93 and T4: the fields of `0x1234`. -/
theorem test_fields : (Word.op 0x1234, Word.x 0x1234, Word.y 0x1234, Word.n 0x1234) = (1, 2, 3, 4) ∧
    (Word.nn 0x1234, Word.nnn 0x1234) = (0x34, 0x234) := by decide

theorem test_encode : encode (.call 0xABC) = 0x2ABC ∧ encode (.ldImm 5 2) = 0x6502 ∧
    encode (.shlReg 0xA 0xB) = 0x8ABE ∧ encode (.drw 1 2 3) = 0xD123 ∧ encode (.sknp 1) = 0xE1A1 ∧
    encode (.loadRegs 1) = 0xF165 := by decide

/-- The host's numbering of a table word, at two rows and at a word of no row. -/
theorem test_decodeTableWord : decodeTableWord 16 0x00E0 = some .cls ∧ decodeTableWord 16 0x8ABE = some (.shlReg 0xA 0xB) ∧
    decodeTableWord 16 0x0123 = none := by decide

/-! ## Well-formedness: no `Instr` is ill-formed (R93); what is no instruction is refused as a word -/

theorem test_wellFormed_every_register : ∀ x y : Reg, (Instr.addReg x y).wellFormed = true := by decide

theorem test_wellFormed_every_height : ∀ n : BitVec 4, (Instr.drw 0xF 0xF n).wellFormed = true := by decide

/-- The ill-formed words next to a row: no decoder answer is an instruction (R98). -/
theorem test_illFormed_words_refused : decodeTableWord 16 0x5AB1 = none ∧ decodeTableWord 16 0x8AB8 = none ∧
    decodeTableWord 16 0x9AB1 = none ∧ decodeTableWord 16 0xE09F = none ∧ decodeTableWord 16 0xF130 = none ∧
    decodeTableWord 16 0x00E1 = none := by decide

/-! ## Single steps (spec/95_test_vectors.md section 3) -/

/-- The state after `Reset; Load([])`. -/
def base : State := { State.reset with phase := .run }

/-- `base` with `V1 = a` and `V2 = b`. -/
def regs (a b : Byte) : State := (base.setV 1 a).setV 2 b

/-- The keys and the random byte of the next `Step`. -/
def State.given (s : State) (keys : BitVec 16) (rnd : Byte) : State :=
  { s with io := { s.io with keys := keys, rnd := rnd } }

/-- The state after one step, or the state itself when the step answers none. -/
def next (s : State) : State :=
  match step s with
  | .next t => t
  | _ => s

/-- The state after the word `w`, stored where `s` fetches, has run. -/
def ran (w : Nat) (s : State) : State := next (s.withFetchWord 16 w)

/-- V108, V109. -/
theorem test_call : (let t := ran 0x2300 { base with pc := 0x202 }; (t.pc, t.sp, t.stack[0]) = (0x300, 1, 0x204)) ∧
    (let t := ran 0x2ABC { base with sp := 15 }; (t.pc, t.sp, t.stack[15]) = (0xABC, 16, 0x202)) := by decide

/-- V110: the seventeenth call is fatal, the stack untouched. -/
theorem test_call_overflow : let t := ran 0x2ABC { base with sp := 16 };
    (t.pc, t.sp, t.phase, t.cause, t.faultPc, t.faultWord) = (0x202, 16, .halt, .stackOverflow, 0x200, 0x2ABC) := by
  decide

/-- V100, V102. -/
theorem test_ret : (let t := ran 0x00EE { base with pc := 0x300, sp := 1, stack := base.stack.set 0 0x204 };
      (t.pc, t.sp) = (0x204, 0)) ∧
    (let t := ran 0x00EE { base with sp := 16, stack := base.stack.set 15 0xABC }; (t.pc, t.sp) = (0xABC, 15)) := by
  decide

/-- V101. -/
theorem test_ret_underflow : let t := ran 0x00EE base;
    (t.pc, t.sp, t.phase, t.diagUnderflow, t.diagPc, t.diagWord) = (0x202, 0, .run, true, 0x200, 0x00EE) := by decide

/-- V105, V107. -/
theorem test_jp : (ran 0x1FFF base).pc = 0xFFF ∧ (ran 0x1201 base).pc = 0x201 := by decide

/-- V114, V115. -/
theorem test_jpV0 : (ran 0xBFFF (base.setV 0 0xFF)).pc = 0x10FE ∧ (ran 0xB345 (base.setV 3 0x55)).pc = 0x345 := by
  decide

/-- V121, V123. -/
theorem test_seImm : (ran 0x332A (base.setV 3 0x2B)).pc = 0x202 ∧ (ran 0x3000 { base with pc := 0xFFE }).pc = 0x1002 := by
  decide

/-- V124, V125. -/
theorem test_sneImm : (ran 0x432A (base.setV 3 0x2A)).pc = 0x202 ∧ (ran 0x432A base).pc = 0x204 := by decide

/-- V126, V127. -/
theorem test_seReg : (ran 0x5120 (regs 7 7)).pc = 0x204 ∧ (ran 0x5120 (regs 7 8)).pc = 0x202 := by decide

/-- V129, V130. -/
theorem test_sneReg : (ran 0x9120 (regs 7 8)).pc = 0x204 ∧ (ran 0x9120 (regs 7 7)).pc = 0x202 := by decide

/-- V140, V141. -/
theorem test_ldImm : (ran 0x6502 base).getV 5 = 2 ∧ (ran 0x6FAB base).getV 0xF = 0xAB := by decide

/-- V144, V147. -/
theorem test_addImm : (let t := ran 0x7301 (base.setV 3 0xFF); (t.getV 3, t.getV 0xF) = (0, 0)) ∧
    (ran 0x7F03 (base.setV 0xF 0xFE)).getV 0xF = 1 := by decide

/-- V149. -/
theorem test_ldI : (ran 0xA050 { base with i := 0xFFFF }).i = 0x50 := by decide

/-- V151. -/
theorem test_ldReg : (ran 0x8F20 (regs 0 0x5A)).getV 0xF = 0x5A := by decide

/-- V152: VF is kept. -/
theorem test_or : let t := ran 0x8121 ((regs 0xF0 0x0F).setV 0xF 1); (t.getV 1, t.getV 0xF) = (0xFF, 1) := by decide

/-- V153. -/
theorem test_and : let t := ran 0x8122 ((regs 0xF0 0x3C).setV 0xF 1); (t.getV 1, t.getV 0xF) = (0x30, 1) := by decide

/-- V154. -/
theorem test_xor : let t := ran 0x8123 ((regs 0xF0 0x3C).setV 0xF 1); (t.getV 1, t.getV 0xF) = (0xCC, 1) := by decide

/-- V157, V162: the carry, and the flag written last. -/
theorem test_add : (let t := ran 0x8124 (regs 0xC8 0x64); (t.getV 1, t.getV 0xF) = (0x2C, 1)) ∧
    (ran 0x8F24 ((regs 0 3).setV 0xF 1)).getV 0xF = 0 := by decide

/-- V163: the old VF is the addend. -/
theorem test_add_vf_source : let t := ran 0x81F4 ((regs 0xFF 0).setV 0xF 1); (t.getV 1, t.getV 0xF) = (0, 1) := by
  decide

/-- V164, V166: borrow, and no borrow at equality. -/
theorem test_sub : (let t := ran 0x8125 (regs 0x0A 0x0C); (t.getV 1, t.getV 0xF) = (0xFE, 0)) ∧
    (let t := ran 0x8125 (regs 0x33 0x33); (t.getV 1, t.getV 0xF) = (0, 1)) := by decide

/-- V175, V177. -/
theorem test_subn : (let t := ran 0x8127 (regs 0x0A 0x0C); (t.getV 1, t.getV 0xF) = (2, 1)) ∧
    (let t := ran 0x8127 (regs 0x33 0x33); (t.getV 1, t.getV 0xF) = (0, 1)) := by decide

/-- V171, V173: the source is VY, the flag is written last. -/
theorem test_shr : (let t := ran 0x8126 (regs 0xFF 4); (t.getV 1, t.getV 0xF, t.getV 2) = (2, 0, 4)) ∧
    (ran 0x8F26 (regs 0 3)).getV 0xF = 1 := by decide

/-- V178, V179. -/
theorem test_shl : (let t := ran 0x812E (regs 0 0x81); (t.getV 1, t.getV 0xF) = (2, 1)) ∧
    (let t := ran 0x812E (regs 0xFF 0x40); (t.getV 1, t.getV 0xF) = (0x80, 0)) := by decide

/-- V190, V191. -/
theorem test_rnd : (ran 0xC30F (State.given base 0 0xA7)).getV 3 = 7 ∧
    (ran 0xC300 (State.given (base.setV 3 0x55) 0 0xFF)).getV 3 = 0 := by decide

/-- A screen with one pixel on. -/
def lit (x : Fin 64) (y : Fin 32) : State := { base with fb := base.fb.setPixel x y true }

/-- V200, the corner. -/
theorem test_cls : (ran 0x00E0 (lit 63 31)).fb.pixel 63 31 = false := by decide

/-- V205: the rows wrap. -/
theorem test_drw_wraps : let t := ran 0xD121 { regs 0xC8 0x64 with i := 0x300, mem := [(0x300, 0x81)] };
    (t.fb.pixel 8 4, t.fb.pixel 9 4, t.fb.pixel 15 4, t.getV 0xF) = (true, false, true, 0) := by decide

/-- V208: a partial overlap is a collision. -/
theorem test_drw_collides : let t := ran 0xD001 { lit 1 0 with i := 0x300, mem := [(0x300, 0xC0)] };
    (t.fb.pixel 0 0, t.fb.pixel 1 0, t.getV 0xF) = (true, false, 1) := by decide

/-- V220, V222. -/
theorem test_skp : (ran 0xE49E (State.given (base.setV 4 5) 0x20 0)).pc = 0x204 ∧
    (ran 0xE49E (State.given (base.setV 4 0x1A) 0x400 0)).pc = 0x204 := by decide

/-- V223, V224. -/
theorem test_sknp : (ran 0xE4A1 (base.setV 4 5)).pc = 0x204 ∧
    (ran 0xE4A1 (State.given (base.setV 4 5) 0x20 0)).pc = 0x202 := by decide

/-- V225, V226. -/
theorem test_ldVxK : (let t := ran 0xF30A { base.setV 3 0x77 with pc := 0x210 }; (t.pc, t.getV 3) = (0x210, 0x77)) ∧
    (let t := ran 0xF30A (State.given { base with pc := 0x210 } 0x204 0); (t.pc, t.getV 3) = (0x212, 2)) := by decide

/-- V230. -/
theorem test_ldVxDt : (ran 0xF207 { base with dt := 0x3C }).getV 2 = 0x3C := by decide

/-- V234, V235. -/
theorem test_ldDtVx : (let t := ran 0xF215 { regs 0 1 with dt := 5, frac := 9 / 10 }; t.dt = 1 ∧ t.frac = 9 / 10) ∧
    (let t := ran 0xF215 { base with dt := 5, frac := 9 / 10 }; t.dt = 0 ∧ t.frac = 0) := by decide +kernel

/-- V233, V237. -/
theorem test_ldStVx : (ran 0xF518 (base.setV 5 0x0A)).st = 0x0A ∧
    (let t := ran 0xF218 { base with st := 7, frac := 1 / 2 }; t.st = 0 ∧ t.frac = 0) := by decide +kernel

/-- V241, V242. -/
theorem test_addI : (let t := ran 0xF11E { regs 1 0 with i := 0xFFF }; (t.i, t.getV 0xF) = (0x1000, 0)) ∧
    (ran 0xF11E { regs 1 0 with i := 0xFFFF }).i = 0 := by decide

/-- V243, V245. -/
theorem test_ldF : (ran 0xF229 (regs 0 0x0A)).i = 0x82 ∧ (ran 0xF229 (regs 0 0x1F)).i = 0x9B := by decide

/-- V246. -/
theorem test_ldB : (ran 0xF333 { base.setV 3 0x9C with i := 0x300 }).mem.readBlock 0x300 4 = [1, 5, 6, 0] := by decide

/-- V250: fatal with nothing written. -/
theorem test_ldB_out_of_bounds : let t := ran 0xF333 { base.setV 3 7 with i := 0xFFE };
    (t.phase, t.cause, t.faultWord, t.mem.read 0xFFE) = (.halt, .memoryOutOfBounds, 0xF333, 0) := by decide

/-- V251, V255. -/
theorem test_storeRegs : (let t := ran 0xF255 { (regs 0x22 0x33).setV 0 0x11 with i := 0x400 };
      (t.mem.readBlock 0x400 4, t.i) = ([0x11, 0x22, 0x33, 0], 0x403)) ∧
    (ran 0xF155 { base with i := 0xFFFF }).cause = .memoryOutOfBounds := by decide

/-- V257. -/
theorem test_loadRegs : let t := ran 0xF465 { base with i := 0x50 };
    (t.getV 0, t.getV 1, t.getV 4, t.getV 5, t.i) = (0xF0, 0x90, 0xF0, 0, 0x55) := by decide

/-- V266: the second diagnostic overwrites address and word, the flag stays. -/
theorem test_unknown : let t := ran 0x9AB1 { base with pc := 0x20A, diagUnimpl := true, diagPc := 0x200, diagWord := 0x5121 };
    (t.pc, t.phase, t.diagUnimpl, t.diagUnderflow, t.diagPc, t.diagWord) = (0x20C, .run, true, false, 0x20A, 0x9AB1) := by
  decide

/-! ## Events -/

/-- `s` with one event to come. -/
def State.event (s : State) (e : Event) : State := { s with io := { s.io with events := [e] } }

/-- V301, V305: the bound of fetch, and an odd `PC`. -/
theorem test_fetch : (let t := next (State.event { base with pc := 0xFFF } (.step 0 0));
      (t.pc, t.phase, t.cause, t.faultPc, t.faultWord) = (0xFFF, .halt, .outOfBoundsFetch, 0xFFF, 0)) ∧
    (let t := next (State.event { base with pc := 0x201, mem := [(0x201, 0x61), (0x202, 0x23)] } (.step 0 0));
      (t.pc, t.getV 1) = (0x203, 0x23)) := by decide

/-- T2: the loaded bytes `0, 1, 2, 3` are fetched big-endian. -/
theorem test_load_then_fetch : let t := next (State.event State.reset (.load [0, 1, 2, 3]));
    (t.phase, t.pc, t.fetchWord, t.advance.fetchWord) = (.run, 0x200, 0x0001, 0x0203) := by decide

/-- V403, V404: the fraction is carried. -/
theorem test_timerUpdate_carry : let t := ({ base with dt := 10 } : State).timerUpdate ⟨1, 99⟩;
    let u := t.timerUpdate ⟨1, 99⟩;
    t.dt = 10 ∧ t.frac = 3 / 5 ∧ u.dt = 9 ∧ u.frac = 1 / 5 := by decide +kernel

/-- V405, V407: each timer saturates alone, and the fraction goes when both are 0. -/
theorem test_timerUpdate_floor : (let t := ({ base with dt := 10, st := 3, frac := 1 / 5 } : State).timerUpdate ⟨1, 9⟩;
      t.dt = 4 ∧ t.st = 0 ∧ t.frac = 1 / 5) ∧
    (let t := ({ base with dt := 2, st := 1, frac := 1 / 2 } : State).timerUpdate ⟨1, 19⟩;
      t.dt = 0 ∧ t.st = 0 ∧ t.frac = 0) := by decide +kernel

/-- V308 and V425: what the phase does not accept. -/
theorem test_refused : (next (State.event State.reset (.step 0 0))).io.result = some .refused ∧
    (next (State.event base (.load [1]))).io.result = some .refused := by decide

/-- A `Reset` leaves the rest of the host's script in place. -/
theorem test_reset : let t := next { base with pc := 7, io := { base.io with events := [.reset, .load []] } };
    (t.phase, t.pc, t.io.events) = (.idle, 0x200, [.load []]) := by decide

/-- The first step after reset runs a placed word (the host's interface). -/
theorem test_withFetchWord_at_reset : (ran 0x6502 State.reset).getV 5 = 2 := by decide

/-! ## Witnesses: states and operands that meet the hypotheses of each statement, each clause at a boundary -/

/-- `RUN` with the program bytes `60 07` at the last address that can be fetched, a `Step` to come. -/
def lastFetch : State := State.event { base with pc := 0xFFE, mem := [(0xFFE, 0x60), (0xFFF, 7)] } (.step 0xFFFF 0xFF)

theorem witness_OpcodeRowsDisjoint : (⟨0xF0FF, 0xF065⟩ : OpcodeRow) ∈ opcodeRows ∧
    (0xFF65 : Word) &&& 0xF0FF = 0xF065 := by decide

theorem witness_UnknownIffNoRowMatches : decode 0x5AB1 = .unknown 0x5AB1 ∧ decode 0x5AB0 = .instr (.seReg 0xA 0xB) := by
  decide

theorem witness_StepRunsDecodedInstruction : lastFetch.io.events = [.step 0xFFFF 0xFF] ∧ lastFetch.phase = .run ∧
    lastFetch.pc.toNat ≤ 0xFFE ∧
    decode (wordOfBytes (lastFetch.mem.read lastFetch.pc.toNat) (lastFetch.mem.read (lastFetch.pc.toNat + 1))) =
      .instr (.ldImm 0 7) := by decide

theorem witness_StepOfFreeHost : let s : State := { base with pc := 0, mem := [(0, 0x12), (1, 0)] };
    s.io.events = [] ∧ s.phase = .run ∧ s.pc.toNat ≤ 0xFFE ∧
    decode (wordOfBytes (s.mem.read s.pc.toNat) (s.mem.read (s.pc.toNat + 1))) = .instr (.jp 0x200) := by decide

/-- The font read as code (V307). -/
theorem witness_StepOnUnknownWord : let s := State.event { base with pc := 0x50 } (.step 0 0);
    s.io.events = [.step 0 0] ∧ s.phase = .run ∧ s.pc.toNat ≤ 0xFFE ∧
    decode (wordOfBytes (s.mem.read s.pc.toNat) (s.mem.read (s.pc.toNat + 1))) = .unknown 0xF090 := by decide

theorem witness_StepOutOfBoundsFetch : let s := State.event { base with pc := 0xFFF } (.step 0 0);
    s.io.events = [.step 0 0] ∧ s.phase = .run ∧ 0xFFE < s.pc.toNat := by decide

theorem witness_RefusedEventsChangeNothing_step : let s := State.event State.reset (.step 0 0);
    s.io.events = [.step 0 0] ∧ s.phase ≠ .run := by decide

theorem witness_RefusedEventsChangeNothing_load : let s := State.event { base with phase := .halt } (.load []);
    s.io.events = [.load []] ∧ s.phase ≠ .idle := by decide

theorem witness_CallPushesOrOverflows : ({ base with sp := 15 } : State).sp.val < 16 ∧
    ({ base with sp := 16 } : State).sp.val = 16 := by decide

theorem witness_ReturnPopsOrUnderflows : 0 < ({ base with sp := 16 } : State).sp.val ∧ base.sp.val = 0 := by decide

theorem witness_ReturnUndoesCall : ({ base with sp := 15 } : State).sp.val < 16 := by decide

theorem witness_flag_destination : (0xE : Reg) ≠ Reg.vf := by decide

/-- Height 0 with `I` outside memory, and a sprite that ends at the last byte of memory. -/
theorem witness_DrawTogglesCoveredPixels : (0 : BitVec 4).toNat = 0 ∧
    ({ base with i := 0xFF1 } : State).i.toNat + (15 : BitVec 4).toNat - 1 ≤ 0xFFF := by decide

/-- A covered pixel that is on, after wrapping both coordinates (R177 (a)). -/
theorem witness_SpriteCovers : let s := { lit 3 4 with i := 0x300, mem := [(0x300, 1)], v := (regs 0xFC 0xE4).v };
    SpriteCovers s 1 2 1 3 4 ∧ s.fb.pixel 3 4 = true :=
  ⟨⟨0, 7, by decide⟩, by decide⟩

/-- A pixel the sprite does not cover: no sprite byte has a set bit. -/
theorem witness_SpriteCovers_not : ¬SpriteCovers { base with i := 0x300 } 1 2 1 0 0 := by
  rintro ⟨r, c, hr, hc, hb, -⟩
  obtain rfl : r = 0 := by omega
  revert hb; interval_cases c <;> decide

theorem witness_DrawTwiceRestoresScreen : (1 : Reg) ≠ Reg.vf ∧ (2 : Reg) ≠ Reg.vf ∧
    ({ base with i := 0x50 } : State).i.toNat + (5 : BitVec 4).toNat - 1 ≤ 0xFFF ∧
    (ran 0xD125 { base with i := 0x50 }).getV Reg.vf = 0 := by decide

theorem witness_DrawTwiceRestoresScreen_covers : SpriteCovers { base with i := 0x50 } 1 2 (5 : BitVec 4).toNat 3 4 :=
  ⟨4, 3, by decide⟩

theorem witness_DataAccessOutOfBoundsIsFatal :
    (let s : State := { base with i := 0xFFF }; 0 < (2 : BitVec 4).toNat ∧ 0xFFF < s.i.toNat + (2 : BitVec 4).toNat - 1) ∧
    (let s : State := { base with i := 0xFFE }; 0xFFF < s.i.toNat + 2) ∧
    (let s : State := { base with i := 0xFFF }; 0xFFF < s.i.toNat + (1 : Reg).val) ∧
    (let s : State := { base with i := 0x1000 }; 0xFFF < s.i.toNat + (0 : Reg).val) := by decide

/-- The first and the last key, and no key. -/
theorem witness_WaitForKey : (let s := State.given base 0x8001 0;
      s.io.keys.getLsbD (0 : Fin 16) = true ∧ ∀ j : Fin 16, j < 0 → s.io.keys.getLsbD j = false) ∧
    (let s := State.given base 0x8000 0;
      s.io.keys.getLsbD (15 : Fin 16) = true ∧ ∀ j : Fin 16, j < 15 → s.io.keys.getLsbD j = false) ∧
    (State.given base 0 0).io.keys = 0 := by decide

/-- V405: `60 * 1/10 + 1/5 = 6 + 1/5`. -/
theorem witness_TimerUpdateRule :
    let s := State.event { base with dt := 10, st := 3, frac := 1 / 5 } (.timerUpdate ⟨1, 9⟩);
    s.io.events = [.timerUpdate ⟨1, 9⟩] ∧ 0 ≤ s.frac ∧
    60 * (((1 : Nat) : Rat) / (((9 : Nat) : Rat) + 1)) + s.frac = ((6 : Nat) : Rat) + 1 / 5 ∧ (0 : Rat) ≤ 1 / 5 ∧
    (1 / 5 : Rat) < 1 := by decide +kernel

/-- V403 and V404 against one update of 1/50 s. -/
theorem witness_TimerUpdatesCompose : 0 ≤ ({ base with dt := 10, frac := 3 / 5 } : State).frac ∧
    Elapsed.seconds ⟨1, 49⟩ = Elapsed.seconds ⟨1, 99⟩ + Elapsed.seconds ⟨1, 99⟩ := by decide +kernel

theorem witness_SixtiethOfASecondIsOneCount : ({ base with dt := 255, st := 1 } : State).frac = 0 := by decide +kernel

theorem witness_StoreDecimalDigits : ({ base with i := 0xFFD } : State).i.toNat + 2 ≤ 0xFFF := by decide

theorem witness_RegisterBlock : ({ base with i := 0xFF0 } : State).i.toNat + (0xF : Reg).val ≤ 0xFFF ∧
    ({ base with i := 0xFFF } : State).i.toNat + (0 : Reg).val ≤ 0xFFF := by decide

theorem witness_StoredWordIsFetched : 1 ≤ (1 : Reg).val ∧
    ({ base with i := 0xFFE } : State).i.toNat + (1 : Reg).val ≤ 0xFFF := by decide

/-- The last byte of memory, and a font byte made zero, listed in order. -/
theorem witness_CanonicalMemoryIsItsBytes : Memory.wf [(0x50, 0), (0xFFF, 1)] ∧
    ∀ a, Memory.read [(0x50, 0), (0xFFF, 1)] a = Memory.read [(0x50, 0), (0xFFF, 1)] a := ⟨by decide, fun _ => rfl⟩

theorem witness_StateAfterReset : (State.event { base with pc := 0xFFE, phase := .halt } .reset).io.events = [.reset] := rfl

/-- A program that just fits, and one that is a byte too long (V422, V423). -/
theorem witness_LoadInIdle : (let bytes := List.replicate 3584 (7 : Byte); let s := State.event State.reset (.load bytes);
      s.io.events = [.load bytes] ∧ s.phase = .idle ∧ bytes.length ≤ 3584) ∧
    (let bytes := List.replicate 3585 (7 : Byte); let s := State.event State.reset (.load bytes);
      s.io.events = [.load bytes] ∧ s.phase = .idle ∧ 3584 < bytes.length) := by
  simp only [List.length_replicate]
  exact ⟨⟨rfl, rfl, le_refl _⟩, rfl, rfl, by decide⟩

/-- A running state with a live return address, a running timer and a changed byte meets the invariant. -/
def busy : State :=
  State.event
    { base with sp := 1, stack := base.stack.set 0 0x1000, pc := 0x10FE, dt := 1, frac := 1 / 2, mem := [(0x300, 1)] }
    (.step 0 0)

theorem witness_Inv : busy.Inv where
  memory := by decide
  fracRange := by decide +kernel
  fracIdle := fun h => absurd h (by decide)
  causeHalt := by decide
  faultClear := fun _ => ⟨rfl, rfl⟩
  pcBound := fun _ => by decide
  stackBound := by decide
  idleReset := fun h => by cases h

/-- From it a step answers a next state, here one with a fatal condition. -/
theorem witness_StepKeepsInvariant : ∃ t, step busy = .next t ∧ t.phase = .halt := ⟨_, rfl, rfl⟩

theorem witness_OnlyResetLeavesHalt : let s := State.event { base with phase := .halt } (.timerUpdate ⟨1, 59⟩);
    s.phase = .halt ∧ (∀ rest, s.io.events ≠ .reset :: rest) ∧ ∃ t, step s = .next t :=
  ⟨rfl, fun _ h => by simp [State.event] at h, _, rfl⟩

theorem witness_DiagnosticsAreSticky :
    let s := State.event { base with diagUnimpl := true, diagUnderflow := true } (.step 0 0);
    (∀ rest, s.io.events ≠ .reset :: rest) ∧ (∃ t, step s = .next t) ∧ s.diagUnimpl = true ∧ s.diagUnderflow = true :=
  ⟨fun _ h => by simp [State.event] at h, ⟨_, rfl⟩, rfl, rfl⟩

theorem witness_InstructionsWriteOnlyTheirRegisters : (∃ t, exec (.addReg 1 2) (regs 3 4) = .next t) ∧
    mayWriteReg (.addReg 1 2) 2 = false := ⟨⟨_, rfl⟩, rfl⟩

theorem witness_InputsReachOnlyFourInstructions : (∃ t, exec (.ldVxDt 1) base = .next t) ∧
    (∀ x, Instr.ldVxDt 1 ≠ .skp x) ∧ (∀ x, Instr.ldVxDt 1 ≠ .sknp x) ∧ (∀ x, Instr.ldVxDt 1 ≠ .ldVxK x) ∧
    (∀ x nn, Instr.ldVxDt 1 ≠ .rnd x nn) := by
  refine ⟨⟨_, rfl⟩, ?_, ?_, ?_, ?_⟩ <;> intros <;> simp

/-- One state for each of the three outcomes: `Ok`, a diagnostic, a fatal condition. -/
theorem witness_StepResultMatchesStatusBlock : (next lastFetch).io.result = some .ok ∧
    (next (State.event base (.step 0 0))).io.result = some (.diagnostic .unimplementedOpcode 0x200 0) ∧
    (next busy).io.result = some (.fatal .outOfBoundsFetch (some 0x10FE) none) := by decide

/-- V106. -/
theorem witness_SelfJumpIsTheEnd : let s := State.event { base with mem := [(0x200, 0x12)] } (.step 0 0);
    s.io.events = [.step 0 0] ∧ s.endedNormally := ⟨rfl, rfl, by decide, 0x200, by decide, by decide⟩

end Sys2Proof.Tests
end

section
/-! PROOFS. The family of spec/10_state.md: what any step of the machine keeps and what each instruction may touch.
One inversion per layer (an event, a cycle, an instruction) and one rule of the invariant per state operation; the
obligations are assembled from them. -/

namespace Sys2Proof.Machine

/-! ## Inversions: what a step and a cycle can be -/

/-- A cycle is refused outside `RUN`, and in `RUN` it is the engine cycle on the sampled inputs (R23, R70). -/
theorem cycle_cases {s t : State} {keys : BitVec 16} {rnd : Byte} (h : s.cycle keys rnd = .next t) :
    (s.phase ≠ .run ∧ t = s.refuse) ∨ (s.phase = .run ∧ (s.sample keys rnd).runCycle = .next t) := by
  by_cases hr : s.phase = .run
  · exact .inr ⟨hr, cycle_of_run s keys rnd hr ▸ h⟩
  · rw [cycle_of_not_run s keys rnd hr] at h
    cases h
    exact .inl ⟨hr, rfl⟩

/-- The address of the instruction under execution, right after fetch has advanced past it (R70). -/
@[simp] theorem pc0_advance (s : State) : s.advance.pc0 = s.pc := by
  simp [State.pc0]

/-- The advance of fetch does not wrap at any `PC` a run reaches (R33). -/
theorem advance_pc_toNat {s : State} (h : s.pc.toNat ≤ 0x10FE) : s.advance.pc.toNat = s.pc.toNat + 2 := by
  rw [State.advance_pc]
  bv_omega

/-- An engine cycle fails to fetch, meets an UNKNOWN word, or executes an instruction at the advanced `PC` (R70). -/
theorem runCycle_cases {s t : State} (h : s.runCycle = .next t) :
    t = s.raiseFatal .outOfBoundsFetch (some s.pc) none ∨
    (s.pc.toNat ≤ 0xFFE ∧
      ((∃ w, t = s.advance.raiseDiagnostic .unimplementedOpcode s.pc w) ∨ ∃ i, exec i s.advance = .next t)) := by
  by_cases hf : s.pc.toNat ≤ 0xFFE
  · rw [runCycle_of_fetchable s hf] at h
    cases hd : decode s.fetchWord with
    | instr i => exact .inr ⟨hf, .inr ⟨i, by rwa [hd] at h⟩⟩
    | unknown w =>
      rw [hd] at h
      cases h
      exact .inr ⟨hf, .inl ⟨w, by rw [pc0_advance]⟩⟩
  · rw [runCycle_of_outside s (by omega)] at h
    cases h
    exact .inl rfl

/-- What the host's script and the events keep, a step keeps: a step is a change of the interface around a `Reset`, a
`Load`, a cycle, a `TimerUpdate`, or a `TimerUpdate` and then a cycle. -/
theorem step_induction {P : State → Prop} {s t : State} (hs : P s) (ht : step s = .next t)
    (io : ∀ u x, P u → P { u with io := x })
    (reset : ∀ rest, s.io.events = .reset :: rest → ∀ u : State, P u → P u.doReset)
    (load : ∀ u bytes, P u → P (State.load u bytes))
    (timer : ∀ u e, P u → P (State.timerUpdate u e))
    (cycle : ∀ u u' keys rnd, P u → State.cycle u keys rnd = .next u' → P u') : P t := by
  cases he : s.io.events with
  | nil =>
    rw [step_of_empty s he] at ht
    exact cycle _ _ _ _ (timer _ _ (io s _ hs)) ht
  | cons e rest =>
    rw [step_of_event s he] at ht
    have hs' := io s { s.io with events := rest } hs
    cases e with
    | reset => cases ht; exact reset rest he _ hs'
    | load bytes => cases ht; exact load _ bytes hs'
    | step keys rnd => exact cycle _ _ keys rnd hs' ht
    | timerUpdate e => cases ht; exact timer _ e hs'

/-- A `Load` is refused outside `IDLE`; in `IDLE` it stores the program and starts, or is fatal (R22, R275 to R278). -/
theorem load_cases (s : State) (bytes : List Byte) :
    (s.phase ≠ .idle ∧ s.load bytes = s.refuse) ∨
    (s.phase = .idle ∧
      (s.load bytes = { s with
          mem := s.mem.writeBlock Config.progBase bytes
          phase := .run
          io := { s.io with result := some .ok } } ∨
        s.load bytes = s.raiseFatal .programLoadOverflow none none)) := by
  unfold State.load
  cases hp : s.phase with
  | idle =>
    refine .inr ⟨rfl, ?_⟩
    by_cases hl : bytes.length ≤ Config.progMax
    · exact .inl (if_pos hl)
    · exact .inr (if_neg hl)
  | run => exact .inl ⟨by simp, rfl⟩
  | halt => exact .inl ⟨by simp, rfl⟩

/-! ## The invariant, one rule per state operation -/

namespace State.Inv

variable {s : State}

theorem withIo (h : s.Inv) (x : Io) : ({ s with io := x } : State).Inv :=
  { h with idleReset := fun hi => by rw [h.idleReset hi] }

theorem refuse (h : s.Inv) : s.refuse.Inv := h.withIo _

theorem sample (h : s.Inv) (keys : BitVec 16) (rnd : Byte) : (s.sample keys rnd).Inv := h.withIo _

/-- A fatal condition leaves a halted CORE with its cause set, whatever the state it is raised in (R240). -/
theorem raiseFatal (h : s.Inv) {c : Cause} (hc : c ≠ .none) (pc word : Option Word) :
    (s.raiseFatal c pc word).Inv :=
  { h with
    causeHalt := by simp [hc]
    faultClear := fun hp => absurd rfl hp
    pcBound := fun hp => by cases hp
    idleReset := fun hi => by cases hi }

/-- A write to the timers that ends in `settleFrac`. In `IDLE` it may only leave them zero (R197, R250). -/
theorem setTimers (h : s.Inv) {dt st : Byte} {f : Rat} (h0 : 0 ≤ f) (h1 : f < 1)
    (hi : s.phase = .idle → dt = 0 ∧ st = 0) :
    ({ s with dt := dt, st := st, frac := f } : State).settleFrac.Inv where
  memory := by simpa using h.memory
  fracRange := by
    rw [settleFrac_frac]
    split
    · exact ⟨le_refl 0, zero_lt_one⟩
    · exact ⟨h0, h1⟩
  fracIdle := fun hdt hst => by
    simp only [settleFrac_dt, settleFrac_st] at hdt hst
    simp [hdt, hst]
  causeHalt := by simpa using h.causeHalt
  faultClear := by simpa using h.faultClear
  pcBound := by simpa using h.pcBound
  stackBound := by simpa using h.stackBound
  idleReset := fun hp => by
    rw [settleFrac_phase] at hp
    obtain ⟨rfl, rfl⟩ := hi hp
    simp only [State.settleFrac, and_self, if_true]
    rw [h.idleReset hp]
    rfl

/-- `TimerUpdate` keeps the invariant in every phase: the amount owed is whole counts and a fraction below one, and
timers that are zero stay zero (R250). -/
theorem timerUpdate (h : s.Inv) (e : Elapsed) : (s.timerUpdate e).Inv := by
  have howed : 0 ≤ s.owed e := by
    rw [owed_eq]
    have := seconds_nonneg e
    linarith [h.fracRange.1]
  obtain ⟨k, f, hk, h0, h1⟩ := exists_counts howed
  rw [timerUpdate_of_counts s hk h0 h1]
  refine h.setTimers h0 h1 fun hi => ?_
  rw [h.idleReset hi]
  exact ⟨(decay_eq_zero 0 k).2 (Nat.zero_le k), (decay_eq_zero 0 k).2 (Nat.zero_le k)⟩

theorem load (h : s.Inv) (bytes : List Byte) : (s.load bytes).Inv := by
  obtain ⟨-, ht⟩ | ⟨hp, ht | ht⟩ := load_cases s bytes <;> rw [ht]
  · exact h.refuse
  · exact
      { h with
        memory := Memory.writeBlock_wf bytes h.memory _
        causeHalt := by simpa [hp] using h.causeHalt
        faultClear := fun _ => h.faultClear (by simp [hp])
        pcBound := fun _ => by
          have hpc : s.pc = State.reset.pc := by rw [h.idleReset hp]
          show s.pc.toNat ≤ 0x10FE
          rw [hpc]; decide
        idleReset := fun hi => by cases hi }
  · exact h.raiseFatal (by decide) none none

/-- `Reset` in any state: every clause holds of the reset values (R47, R48). -/
theorem doReset (s : State) : s.doReset.Inv where
  memory := reset_memory_wf
  fracRange := ⟨le_refl 0, zero_lt_one⟩
  fracIdle := fun _ _ => rfl
  causeHalt := by simp [State.doReset, State.reset]
  faultClear := fun _ => ⟨rfl, rfl⟩
  pcBound := fun hp => by cases hp
  stackBound := fun k hk => absurd hk (Nat.not_lt_zero _)
  idleReset := fun _ => rfl

/-- A data access completes as its own rule says, or is fatal (R72). -/
theorem withData (h : s.Inv) (i : Instr) (len : Nat) {t : State} (ht : t.Inv) : (s.withData i len t).Inv := by
  obtain ⟨-, e⟩ | ⟨-, e⟩ := withData_cases s i len t <;> rw [e]
  · exact ht
  · exact h.raiseFatal (by decide) _ _

/-! ### In `RUN`, where instructions execute -/

/-- Outside `IDLE` the clause on the reset values asks for nothing. -/
theorem not_idle {p : Prop} (hr : s.phase = .run) (hi : s.phase = .idle) : p := by
  rw [hr] at hi; cases hi

section Running

variable (h : s.Inv) (hr : s.phase = .run)
include h hr

theorem withV (v : Vector Byte 16) : ({ s with v := v } : State).Inv := { h with idleReset := not_idle hr }

theorem setV (x : Reg) (b : Byte) : (s.setV x b).Inv := h.withV hr _

theorem setResultFlag (x : Reg) (r : Byte) (f : Bool) : (s.setResultFlag x r f).Inv := h.withV hr _

theorem loadFrom (ks : List Reg) : (s.loadFrom ks).Inv := by
  rw [loadFrom_eq]; exact h.withV hr _

theorem setI (w : Word) : (s.setI w).Inv := { h with idleReset := not_idle hr }

theorem stepI (x : Reg) : (s.stepI x).Inv := h.setI hr _

theorem withFb (fb : FrameBuffer) : ({ s with fb := fb } : State).Inv := { h with idleReset := not_idle hr }

theorem withMem {m : Memory} (hm : m.wf) : ({ s with mem := m } : State).Inv :=
  { h with memory := hm, idleReset := not_idle hr }

theorem jump {a : Word} (ha : a.toNat ≤ 0x10FE) : (s.jump a).Inv :=
  { h with pcBound := fun _ => ha, idleReset := not_idle hr }

/-- A skip adds 2 to a `PC` of at most `0x1000` (R48 (e)). -/
theorem skipIf (hpc : s.pc.toNat ≤ 0x1000) (c : Bool) : (s.skipIf c).Inv := by
  cases c
  · exact h
  · exact h.jump hr (by rw [← State.advance_pc, advance_pc_toNat] <;> omega)

/-- Fetch advances a `PC` from which both bytes can be read (R68, R70). -/
theorem advance (hf : s.pc.toNat ≤ 0xFFE) : s.advance.Inv :=
  h.skipIf hr (by omega) true

theorem raiseDiagnostic (d : Diagnostic) (pc word : Word) : (s.raiseDiagnostic d pc word).Inv :=
  { h with idleReset := not_idle hr }

/-- `push` of an address of at most `0x1000` keeps the bound on the live return addresses (R122). -/
theorem push {w : Word} (hw : w.toNat ≤ 0x1000) {t : State} (ht : s.push w = some t) : t.Inv := by
  unfold State.push at ht
  split at ht
  next hroom =>
    cases ht
    refine { h with idleReset := not_idle hr, stackBound := fun k hk => ?_ }
    simp only at hk ⊢
    by_cases hks : s.sp.val = k.val
    · simpa [hks] using hw
    · simpa [Vector.getElem_set_ne, hks] using h.stackBound k (by omega)
  next => cases ht

/-- `pop` answers a live return address and leaves fewer entries live (R120). -/
theorem pop {w : Word} {t : State} (ht : s.pop = some (w, t)) : t.Inv ∧ w.toNat ≤ 0x1000 := by
  unfold State.pop at ht
  split at ht
  next => cases ht
  next hlive =>
    cases ht
    refine ⟨{ h with idleReset := not_idle hr, stackBound := fun k hk => h.stackBound k ?_ }, ?_⟩
    · simp only at hk; omega
    · exact h.stackBound ⟨s.sp.val - 1, by omega⟩ (by simp only; omega)

end Running

end State.Inv

theorem onlyChanges_pop {s t : State} {w : Word} (h : s.pop = some (w, t)) : OnlyChanges [.sp] s t := by
  unfold State.pop at h
  split at h <;> cases h
  intro f hf; cases f <;> simp [Unchanged] at hf ⊢; exact fun z => rfl

theorem onlyChanges_push {s t : State} {w : Word} (h : s.push w = some t) : OnlyChanges [.sp, .stack] s t := by
  unfold State.push at h
  split at h <;> cases h
  intro f hf; cases f <;> simp [Unchanged] at hf ⊢; exact fun z => rfl

theorem phase_of_pop {s t : State} {w : Word} (h : s.pop = some (w, t)) : t.phase = s.phase :=
  (onlyChanges_pop h .fault (by decide)).1

theorem phase_of_push {s t : State} {w : Word} (h : s.push w = some t) : t.phase = s.phase :=
  (onlyChanges_push h .fault (by decide)).1

/-- The execute stage of any instruction keeps the invariant, from the `PC` that a fetch leaves (R48, R70). -/
theorem exec_keeps_inv {s t : State} (h : s.Inv) (hr : s.phase = .run) (hlo : 2 ≤ s.pc.toNat)
    (hhi : s.pc.toNat ≤ 0x1000) (i : Instr) (ht : exec i s = .next t) : t.Inv := by
  cases i with
  | cls => cases ht; exact h.withFb hr _
  | ret =>
    simp only [exec, execRet] at ht
    split at ht <;> cases ht
    next target u hpop =>
      obtain ⟨hu, hw⟩ := h.pop hr hpop
      exact hu.jump ((phase_of_pop hpop).trans hr) (by omega)
    next => exact h.raiseDiagnostic hr _ _ _
  | call nnn =>
    simp only [exec, execCall] at ht
    split at ht <;> cases ht
    next u hpush =>
      refine (h.push hr hhi hpush).jump ((phase_of_push hpush).trans hr) ?_
      rw [zext16_toNat (by decide)]; omega
    next => exact h.raiseFatal (by decide) _ _
  | jp nnn => cases ht; exact h.jump hr (by rw [zext16_toNat (by decide)]; omega)
  | jpV0 nnn =>
    cases ht
    refine h.jump hr ?_
    rw [BitVec.toNat_add, zext16_toNat (by decide), zext16_toNat (by decide)]
    omega
  | seImm | sneImm | seReg | sneReg | skp | sknp => cases ht; exact h.skipIf hr hhi _
  | ldImm | addImm | ldReg | orReg | andReg | xorReg | rnd | ldVxDt => cases ht; exact h.setV hr _ _
  | addReg | subReg | shrReg | subnReg | shlReg => cases ht; exact h.setResultFlag hr _ _ _
  | ldI | addI | ldF => cases ht; exact h.setI hr _
  | drw x y n => cases ht; exact h.withData _ _ ((h.withFb hr (s.drawing x y n.toNat).1).setV hr _ _)
  | ldVxK x =>
    simp only [exec, execLdVxK] at ht
    split at ht <;> cases ht
    next => exact h.setV hr _ _
    next => exact h.jump hr (by unfold State.pc0; bv_omega)
  | ldDtVx | ldStVx =>
    cases ht
    exact h.setTimers h.fracRange.1 h.fracRange.2 (State.Inv.not_idle hr)
  | ldB x => cases ht; exact h.withData _ _ (h.withMem hr (Memory.writeBlock_wf _ h.memory _))
  | storeRegs x => cases ht; exact h.withData _ _ ((h.withMem hr (Memory.writeBlock_wf _ h.memory _)).stepI hr _)
  | loadRegs x =>
    cases ht
    have hphase : (s.loadFrom (Reg.upTo x)).phase = .run := by rw [loadFrom_eq]; exact hr
    exact h.withData _ _ ((h.loadFrom hr _).stepI hphase _)

/-- An engine cycle in `RUN` keeps the invariant. -/
theorem runCycle_keeps_inv {s t : State} (h : s.Inv) (hr : s.phase = .run) (ht : s.runCycle = .next t) : t.Inv := by
  obtain rfl | ⟨hf, ⟨w, rfl⟩ | ⟨i, hi⟩⟩ := runCycle_cases ht
  · exact h.raiseFatal (by decide) _ _
  · exact (h.advance hr hf).raiseDiagnostic hr _ _ _
  · have hpc := advance_pc_toNat (s := s) (by omega)
    exact exec_keeps_inv (h.advance hr hf) hr (by omega) (by omega) i hi

/-- Settles O52: every event of the host keeps the invariant, by one rule per event, per cycle and per state operation
of an instruction. -/
theorem stepKeepsInvariant : Obligations.StepKeepsInvariant := by
  intro s t hs ht
  refine step_induction hs ht (fun u x hu => hu.withIo x) (fun _ _ u _ => .doReset u)
    (fun u bytes hu => hu.load bytes) (fun u e hu => hu.timerUpdate e) (fun u u' keys rnd hu hc => ?_)
  obtain ⟨-, rfl⟩ | ⟨hr, hrun⟩ := cycle_cases hc
  · exact hu.refuse
  · exact runCycle_keeps_inv (hu.sample keys rnd) hr hrun

/-- Settles O51: the state after reset is what a `Reset` answers there. -/
theorem invariantHoldsAtReset : Obligations.InvariantHoldsAtReset :=
  State.Inv.doReset State.reset

/-! ## What an instruction can answer -/

/-- The pieces of state that only a condition writes (R240, R241). -/
@[simp] def Field.ofCondition : Field → Bool
  | .fault | .diag | .result => true
  | _ => false

/-- The pieces of state that an instruction may change when it raises no condition. -/
def effects (i : Instr) : List Field := (mayChange i).filter fun f => !f.ofCondition

@[simp] theorem mem_effects {f : Field} {i : Instr} :
    f ∈ effects i ↔ f ∈ mayChange i ∧ f.ofCondition = false := by
  simp [effects]

theorem notMem_effects {f : Field} (h : f.ofCondition = true) (i : Instr) : f ∉ effects i := by
  rw [mem_effects, h]
  exact fun hf => Bool.noConfusion hf.2

/-- What the execute stage of `i` at `s` can answer: it completes within its effects, it underflows the stack, or it
raises one fatal condition that the spec lets it raise (R230, R240, R241). -/
inductive ExecAnswer (i : Instr) (s : State) : State → Prop
  | done {t : State} (frame : OnlyChanges (effects i) s t) : ExecAnswer i s t
  | underflow (ret : i = .ret) : ExecAnswer i s (s.raiseDiagnostic .stackUnderflow s.pc0 (encode i))
  | fatal {c : Cause} (cause : c = .stackOverflow ∨ c = .memoryOutOfBounds)
      (allowed : ∀ f ∈ [Field.fault, Field.result], f ∈ mayChange i) : ExecAnswer i s (s.raiseInExec c i)

theorem execAnswer_withData {s t : State} (i : Instr) (len : Nat) (frame : OnlyChanges (effects i) s t)
    (allowed : ∀ f ∈ [Field.fault, Field.result], f ∈ mayChange i) : ExecAnswer i s (s.withData i len t) := by
  obtain ⟨-, e⟩ | ⟨-, e⟩ := withData_cases s i len t <;> rw [e]
  · exact .done frame
  · exact .fatal (.inr rfl) allowed

theorem onlyChanges_setDt (s : State) (b : Byte) : OnlyChanges [.dt] s { s with dt := b } := by
  intro f hf; cases f <;> simp [Unchanged] at hf ⊢; exact fun z => rfl

theorem onlyChanges_setSt (s : State) (b : Byte) : OnlyChanges [.st] s { s with st := b } := by
  intro f hf; cases f <;> simp [Unchanged] at hf ⊢; exact fun z => rfl

/-- Two changes one after the other touch the pieces of both. -/
theorem OnlyChanges.append {fs gs : List Field} {s t u : State} (h : OnlyChanges fs s t) (k : OnlyChanges gs t u) :
    OnlyChanges (fs ++ gs) s u :=
  (h.mono fun _ => List.mem_append_left gs).trans (k.mono fun _ => List.mem_append_right fs)

/-- Every instruction at every state answers a next state, of one of the three kinds. -/
theorem exec_answers (i : Instr) (s : State) : ∃ t, exec i s = .next t ∧ ExecAnswer i s t := by
  cases i with
  | cls => exact ⟨_, rfl, .done (onlyChanges_fb s _)⟩
  | ret =>
    simp only [exec, execRet]
    split
    next target u hpop =>
      have frame := (onlyChanges_pop hpop).append (onlyChanges_jump u target)
      exact ⟨_, rfl, .done (frame.mono (by simp [mayChange]))⟩
    next => exact ⟨_, rfl, .underflow rfl⟩
  | call nnn =>
    simp only [exec, execCall]
    split
    next u hpush =>
      have frame := (onlyChanges_push hpush).append (onlyChanges_jump u (zext16 nnn))
      exact ⟨_, rfl, .done (frame.mono (by simp [mayChange]))⟩
    next => exact ⟨_, rfl, .fatal (.inl rfl) (by simp [mayChange])⟩
  | jp | jpV0 => exact ⟨_, rfl, .done (onlyChanges_jump s _)⟩
  | seImm | sneImm | seReg | sneReg | skp | sknp => exact ⟨_, rfl, .done (onlyChanges_skipIf s _)⟩
  | ldImm | addImm | ldReg | orReg | andReg | xorReg | rnd | ldVxDt =>
    exact ⟨_, rfl, .done (onlyChanges_setV s _ _)⟩
  | addReg | subReg | shrReg | subnReg | shlReg => exact ⟨_, rfl, .done (onlyChanges_setResultFlag s _ _ _)⟩
  | ldI | addI | ldF => exact ⟨_, rfl, .done (onlyChanges_setI s _)⟩
  | drw x y n =>
    have frame := (onlyChanges_fb s (s.drawing x y n.toNat).1).append
      (onlyChanges_setV _ Reg.vf (flag (s.drawing x y n.toNat).2))
    exact ⟨_, rfl, execAnswer_withData _ _ (frame.mono (by simp [mayChange])) (by simp [mayChange])⟩
  | ldVxK x =>
    simp only [exec, execLdVxK]
    split
    next k _ => exact ⟨_, rfl, .done ((onlyChanges_setV s x _).mono (by simp [mayChange]))⟩
    next => exact ⟨_, rfl, .done ((onlyChanges_jump s _).mono (by simp [mayChange]))⟩
  | ldDtVx x => exact ⟨_, rfl, .done ((onlyChanges_setDt s _).append (onlyChanges_settleFrac _))⟩
  | ldStVx x => exact ⟨_, rfl, .done ((onlyChanges_setSt s _).append (onlyChanges_settleFrac _))⟩
  | ldB x => exact ⟨_, rfl, execAnswer_withData _ _ (onlyChanges_mem s _) (by simp [mayChange])⟩
  | storeRegs x =>
    have frame := (onlyChanges_mem s (s.mem.writeBlock s.i.toNat (s.firstRegs x))).append (onlyChanges_stepI _ x)
    exact ⟨_, rfl, execAnswer_withData _ _ frame (by simp [mayChange])⟩
  | loadRegs x =>
    have frame := (onlyChanges_loadFrom s (Reg.upTo x)).append (onlyChanges_stepI _ x)
    exact ⟨_, rfl, execAnswer_withData _ _ frame (by simp [mayChange])⟩

theorem exec_cases {i : Instr} {s t : State} (h : exec i s = .next t) : ExecAnswer i s t := by
  obtain ⟨u, hu, answer⟩ := exec_answers i s
  cases hu.symm.trans h
  exact answer

/-- Settles O55: the effects of an instruction and what its conditions write all lie in its list. -/
theorem instructionsChangeOnlyTheirState : Obligations.InstructionsChangeOnlyTheirState := by
  intro i s t h
  cases exec_cases h with
  | done frame => exact frame.mono fun _ hf => (mem_effects.1 hf).1
  | underflow ret =>
    subst ret
    exact (onlyChanges_raiseDiagnostic s _ _ _).mono (by decide)
  | fatal _ allowed => exact (onlyChanges_raiseFatal s _ _ _).mono allowed

theorem cycle_answers (s : State) (keys : BitVec 16) (rnd : Byte) : ∃ t, s.cycle keys rnd = .next t := by
  by_cases hr : s.phase = .run
  · rw [cycle_of_run s keys rnd hr]
    unfold State.runCycle
    split
    · cases decode (s.sample keys rnd).fetchWord with
      | instr i => exact (exec_answers i _).imp fun _ h => h.1
      | unknown w => exact ⟨_, rfl⟩
    · exact ⟨_, rfl⟩
  · exact ⟨_, cycle_of_not_run s keys rnd hr⟩

theorem step_answers (s : State) : ∃ t, step s = .next t := by
  cases he : s.io.events with
  | nil => rw [step_of_empty s he]; exact cycle_answers _ _ _
  | cons e rest =>
    rw [step_of_event s he]
    cases e with
    | step keys rnd => exact cycle_answers _ keys rnd
    | reset | load | timerUpdate => exact ⟨_, rfl⟩

/-- Settles O13: the only events that could answer anything else run an instruction, and each of those answers. -/
theorem everyStepAnswersNext : Obligations.EveryStepAnswersNext :=
  ⟨step_answers, fun i s => (exec_answers i s).imp fun _ h => h.1⟩

/-! ## Events in a phase that does not accept them, and in `HALT` -/

/-- `s` with the script of the host's events still to come (notes/assumptions 1). -/
def State.withEvents (s : State) (rest : List Event) : State := { s with io := { s.io with events := rest } }

theorem onlyChanges_withEvents (s : State) (rest : List Event) : OnlyChanges [.inputs] s (s.withEvents rest) := by
  intro f hf; cases f <;> simp [Unchanged, State.withEvents] at hf ⊢; exact fun z => rfl

/-- Settles O12: the phase is what decides between the event and its refusal. -/
theorem refusedEventsChangeNothing : Obligations.RefusedEventsChangeNothing := by
  intro s e rest he hphase
  rw [step_of_event s he]
  obtain ⟨⟨keys, rnd, rfl⟩, hp⟩ | ⟨⟨bytes, rfl⟩, hp⟩ := hphase
  · exact cycle_of_not_run _ keys rnd hp
  · obtain ⟨-, hl⟩ | ⟨hi, -⟩ := load_cases (s.withEvents rest) bytes
    · exact congrArg _ hl
    · exact absurd hi hp

theorem onlyChanges_io (s : State) (x : Io) : OnlyChanges [.result, .inputs] s { s with io := x } := by
  intro f hf; cases f <;> simp [Unchanged] at hf ⊢; exact fun z => rfl

/-- Settles O53: in `HALT` a `Load` and a cycle are refused, so only `TimerUpdate` and the interface are left. -/
theorem onlyResetLeavesHalt : Obligations.OnlyResetLeavesHalt := by
  intro s t hp hreset ht
  refine step_induction (P := fun u => u.phase = .halt ∧ OnlyChanges [.dt, .st, .frac, .result, .inputs] s u)
    ⟨hp, .refl _ s⟩ ht ?io (fun rest he => absurd he (hreset rest)) ?load ?timer ?cycle
  case io => exact fun u x ⟨hu, hs⟩ => ⟨hu, hs.trans ((onlyChanges_io u x).mono (by decide))⟩
  case timer =>
    exact fun u e ⟨hu, hs⟩ =>
      ⟨(State.timerUpdate_phase u e).trans hu, hs.trans ((onlyChanges_timerUpdate u e).mono (by decide))⟩
  case load =>
    rintro u bytes ⟨hu, hs⟩
    obtain ⟨-, hl⟩ | ⟨hi, -⟩ := load_cases u bytes
    · rw [hl]; exact ⟨hu, hs.trans ((onlyChanges_refuse u).mono (by decide))⟩
    · rw [hu] at hi; cases hi
  case cycle =>
    rintro u u' keys rnd ⟨hu, hs⟩ hc
    obtain ⟨-, rfl⟩ | ⟨hr, -⟩ := cycle_cases hc
    · exact ⟨hu, hs.trans ((onlyChanges_refuse u).mono (by decide))⟩
    · rw [hu] at hr; cases hr

/-! ## Diagnostics and the result of a `Step` -/

/-- Every diagnostic flag that is set in `s` is set in `t` (R45). -/
def FlagsKept (s t : State) : Prop :=
  (s.diagUnimpl = true → t.diagUnimpl = true) ∧ (s.diagUnderflow = true → t.diagUnderflow = true)

theorem FlagsKept.trans {s t u : State} (h : FlagsKept s t) (k : FlagsKept t u) : FlagsKept s u :=
  ⟨k.1 ∘ h.1, k.2 ∘ h.2⟩

theorem flagsKept_of_unchanged {s t : State} (h : Unchanged s t .diag) : FlagsKept s t := by
  obtain ⟨hunimpl, hunderflow, -, -⟩ := h
  exact ⟨hunimpl.trans, hunderflow.trans⟩

/-- Raising a diagnostic sets one flag and clears none (R241). -/
theorem flagsKept_raiseDiagnostic (s : State) (d : Diagnostic) (pc word : Word) :
    FlagsKept s (s.raiseDiagnostic d pc word) :=
  ⟨fun h => by simp [h], fun h => by simp [h]⟩

theorem exec_flagsKept {i : Instr} {s t : State} (h : exec i s = .next t) : FlagsKept s t := by
  cases exec_cases h with
  | done frame => exact flagsKept_of_unchanged (frame .diag (notMem_effects rfl i))
  | underflow => exact flagsKept_raiseDiagnostic s _ _ _
  | fatal => exact ⟨id, id⟩

theorem cycle_flagsKept {s t : State} {keys : BitVec 16} {rnd : Byte} (h : s.cycle keys rnd = .next t) :
    FlagsKept s t := by
  obtain ⟨-, rfl⟩ | ⟨-, hrun⟩ := cycle_cases h
  · exact ⟨id, id⟩
  · obtain rfl | ⟨-, ⟨w, rfl⟩ | ⟨i, hi⟩⟩ := runCycle_cases hrun
    · exact ⟨id, id⟩
    · exact flagsKept_raiseDiagnostic (s.sample keys rnd).advance _ _ _
    · exact FlagsKept.trans (t := (s.sample keys rnd).advance) ⟨id, id⟩ (exec_flagsKept hi)

/-- Settles O54: no event but `Reset` clears a flag. -/
theorem diagnosticsAreSticky : Obligations.DiagnosticsAreSticky := by
  intro s t hreset ht
  refine step_induction (P := FlagsKept s) ⟨id, id⟩ ht (fun _ _ hu => hu)
    (fun rest he => absurd he (hreset rest)) (fun u bytes hu => hu.trans ?load)
    (fun u e hu => hu.trans (flagsKept_of_unchanged (onlyChanges_timerUpdate u e .diag (by decide))))
    (fun u u' keys rnd hu hc => hu.trans (cycle_flagsKept hc))
  case load => obtain ⟨-, hl⟩ | ⟨-, hl | hl⟩ := load_cases u bytes <;> rw [hl] <;> exact ⟨id, id⟩

/-- Settles O58: a cycle raises the fetch condition, the diagnostic of an UNKNOWN word, or what its instruction raises,
each through the one operation that writes the status block and the result. -/
theorem stepResultMatchesStatusBlock : Obligations.StepResultMatchesStatusBlock := by
  intro s t keys rnd rest he hr ht
  rw [step_of_event s he] at ht
  obtain ⟨hn, -⟩ | ⟨-, hrun⟩ := cycle_cases ht
  · exact absurd hr hn
  · obtain rfl | ⟨-, ⟨w, rfl⟩ | ⟨i, hi⟩⟩ := runCycle_cases hrun
    · refine .inr (.inr ⟨.outOfBoundsFetch, none, rfl, rfl, rfl, ?_, ?_, rfl, rfl, rfl, rfl, rfl, rfl⟩) <;> decide
    · refine .inr (.inl ⟨.unimplementedOpcode, w, rfl, rfl, rfl, ?_, ?_, rfl, rfl, rfl, rfl⟩)
      · exact State.raiseDiagnostic_diagUnimpl _ _ _ _
      · exact State.raiseDiagnostic_diagUnderflow _ _ _ _
    · cases exec_cases hi with
      | done frame =>
        exact .inl ⟨frame .result (notMem_effects rfl i), frame .fault (notMem_effects rfl i),
          frame .diag (notMem_effects rfl i)⟩
      | underflow ret =>
        rw [pc0_advance]
        refine .inr (.inl ⟨.stackUnderflow, encode i, rfl, rfl, rfl, ?_, ?_, rfl, rfl, rfl, rfl⟩)
        · exact State.raiseDiagnostic_diagUnimpl _ _ _ _
        · exact State.raiseDiagnostic_diagUnderflow _ _ _ _
      | @fatal c cause _ =>
        rw [State.raiseInExec, pc0_advance]
        refine .inr (.inr ⟨c, some (encode i), rfl, rfl, rfl, ?_, ?_, rfl, rfl, rfl, rfl, rfl, rfl⟩)
        · obtain rfl | rfl := cause <;> decide
        · obtain rfl | rfl := cause <;> decide

/-! ## Registers and inputs -/

/-- Settles O56: an instruction with a register among its effects writes the listed ones, by its own operation; the
others leave the register file alone. -/
theorem instructionsWriteOnlyTheirRegisters : Obligations.InstructionsWriteOnlyTheirRegisters := by
  intro i s t z h hz
  cases i with
  | ldImm | addImm | rnd | ldVxDt | ldReg | orReg | andReg | xorReg =>
    cases h
    exact getV_setV_ne s _ (by simpa [mayWriteReg] using hz)
  | addReg x | subReg x | shrReg x | subnReg x | shlReg x =>
    cases h
    exact regsKept_setResultFlag s x _ _ z (by simpa [mayWriteReg] using hz)
  | drw x y n =>
    cases h
    exact getV_withData s _ _ (getV_setV_ne _ _ (by simpa [mayWriteReg] using hz))
  | ldVxK x =>
    simp only [exec, execLdVxK] at h
    split at h <;> cases h
    next => exact getV_setV_ne s _ (by simpa [mayWriteReg] using hz)
    next => exact getV_jump s _ z
  | loadRegs x =>
    cases h
    refine getV_withData s _ _ ?_
    have hzx : z ∉ Reg.upTo x := by simpa [mayWriteReg] using hz
    rw [getV_stepI, getV_loadFrom, if_neg hzx]
  | _ => exact instructionsChangeOnlyTheirState _ s t h .v (by simp [mayChange]) z

/-- `s` with other inputs of the current `Step` (R39, R40). -/
def State.withInputs (s : State) (keys : BitVec 16) (rnd : Byte) : State :=
  { s with io := { s.io with keys := keys, rnd := rnd } }

section Inputs

variable (s : State) (keys : BitVec 16) (rnd : Byte)

theorem skipIf_withInputs (c : Bool) : (s.withInputs keys rnd).skipIf c = (s.skipIf c).withInputs keys rnd := by
  cases c <;> rfl

theorem settleFrac_withInputs : (s.withInputs keys rnd).settleFrac = s.settleFrac.withInputs keys rnd := by
  unfold State.withInputs; rw [settleFrac_io, State.settleFrac_io]

theorem withData_withInputs (i : Instr) (len : Nat) {t u : State} (hu : u = t.withInputs keys rnd) :
    (s.withInputs keys rnd).withData i len u = (s.withData i len t).withInputs keys rnd := by
  subst hu
  obtain ⟨hb, e⟩ | ⟨hb, e⟩ := withData_cases s i len t <;> rw [e]
  · exact withData_of_inBounds _ i len _ hb
  · exact withData_of_outside _ i len _ hb

theorem loadFrom_withInputs (ks : List Reg) :
    (s.withInputs keys rnd).loadFrom ks = (s.loadFrom ks).withInputs keys rnd := by
  have hio : (s.loadFrom ks).io = s.io := by rw [loadFrom_eq]
  rw [State.withInputs, State.withInputs, loadFrom_io, hio]

end Inputs

/-- Settles O57: every operation that the other instructions are built from commutes with a change of the inputs. -/
theorem inputsReachOnlyFourInstructions : Obligations.InputsReachOnlyFourInstructions := by
  intro i s t keys rnd h hskp hsknp hkey hrnd
  show exec i (s.withInputs keys rnd) = .next (t.withInputs keys rnd)
  cases i with
  | skp x => exact absurd rfl (hskp x)
  | sknp x => exact absurd rfl (hsknp x)
  | ldVxK x => exact absurd rfl (hkey x)
  | rnd x nn => exact absurd rfl (hrnd x nn)
  | ret =>
    simp only [exec, execRet] at h ⊢
    rw [State.withInputs, pop_io]
    cases hpop : s.pop with
    | none => rw [hpop] at h; cases h; rfl
    | some p => rw [hpop] at h; cases h; rw [State.withInputs, State.jump_io, io_of_pop hpop]; rfl
  | call nnn =>
    simp only [exec, execCall] at h ⊢
    rw [State.withInputs, push_io]
    cases hpush : s.push s.pc with
    | none => rw [hpush] at h; cases h; rfl
    | some u => rw [hpush] at h; cases h; rw [State.withInputs, State.jump_io, io_of_push hpush]; rfl
  | seImm | sneImm | seReg | sneReg => cases h; exact congrArg _ (skipIf_withInputs s keys rnd _)
  | ldDtVx x =>
    cases h; exact congrArg Host.Outcome.next (settleFrac_withInputs { s with dt := s.getV x } keys rnd)
  | ldStVx x =>
    cases h; exact congrArg Host.Outcome.next (settleFrac_withInputs { s with st := s.getV x } keys rnd)
  | drw | ldB | storeRegs => cases h; exact congrArg Host.Outcome.next (withData_withInputs s keys rnd _ _ rfl)
  | loadRegs x =>
    cases h
    simp only [exec, execLoadRegs, loadFrom_withInputs]
    exact congrArg Host.Outcome.next (withData_withInputs s keys rnd _ _ rfl)
  | _ => cases h; rfl

/-! ## A call and its return, the timers, reset, and what the host reads -/

theorem exec_call_of_room (s : State) (nnn : BitVec 12) (h : s.sp.val < 16) : exec (.call nnn) s =
    .next ({ s with stack := s.stack.set s.sp.val s.pc h, sp := ⟨s.sp.val + 1, by omega⟩ }.jump (zext16 nnn)) := by
  simp only [exec, execCall, push_of_room s s.pc h]

theorem exec_ret_of_live (s : State) (h : s.sp.val ≠ 0) : exec .ret s =
    .next ({ s with sp := ⟨s.sp.val - 1, by omega⟩ }.jump (s.stack[s.sp.val - 1]'(by omega))) := by
  simp only [exec, execRet, pop_of_live s h]

/-- Settles O18: the call pushes the advanced `PC` on top of the live entries, and the return pops it. -/
theorem returnUndoesCall : Obligations.ReturnUndoesCall := by
  intro nnn s hroom
  refine ⟨_, _, exec_call_of_room s nnn hroom, exec_ret_of_live _ (Nat.succ_ne_zero _), ?pc, rfl, fun k hk => ?live,
    ?frame⟩
  case pc => exact Vector.getElem_set_self _
  case live => exact Vector.getElem_set_ne hroom k.isLt (by omega)
  case frame => intro f hf; cases f <;> simp [Unchanged] at hf ⊢; exact fun z => rfl

section Timers

variable {s : State} {e : Elapsed} {k : Nat} {f : Rat} (h : s.owed e = k + f) (h0 : 0 ≤ f) (h1 : f < 1)
include h h0 h1

theorem timerUpdate_dt_of_counts : (s.timerUpdate e).dt.toNat = s.dt.toNat - k := by
  rw [timerUpdate_of_counts s h h0 h1, State.settleFrac_dt, decay_toNat]

theorem timerUpdate_st_of_counts : (s.timerUpdate e).st.toNat = s.st.toNat - k := by
  rw [timerUpdate_of_counts s h h0 h1, State.settleFrac_st, decay_toNat]

theorem timerUpdate_frac_of_counts :
    (s.timerUpdate e).frac = if s.dt.toNat ≤ k ∧ s.st.toNat ≤ k then 0 else f := by
  rw [timerUpdate_of_counts s h h0 h1, State.settleFrac_frac]
  simp only [decay_eq_zero]

end Timers

/-- Settles O39: the amount owed is the given counts and fraction, and each timer decays by the counts. -/
theorem timerUpdateRule : Obligations.TimerUpdateRule := by
  intro s e rest k f he _ hsum h0 h1
  have howed : (s.withEvents rest).owed e = k + f := by
    rw [owed_eq, ← hsum, Elapsed.seconds]; push_cast; rfl
  refine ⟨(s.withEvents rest).timerUpdate e, step_of_event s he, ?dt, ?st,
    timerUpdate_frac_of_counts howed h0 h1, ?events, ?frame⟩
  case dt => rw [tsub_min]; exact timerUpdate_dt_of_counts howed h0 h1
  case st => rw [tsub_min]; exact timerUpdate_st_of_counts howed h0 h1
  case events => rw [State.timerUpdate_io]; rfl
  case frame => exact ((onlyChanges_withEvents s rest).append (onlyChanges_timerUpdate _ e)).mono (by decide)

/-- Settles O49: every field of `State.reset`, and of its memory the font and nothing else. -/
theorem stateAfterReset : Obligations.StateAfterReset := by
  intro s rest he
  have hfont : State.reset.mem.readBlock 0x050 80 = font := by decide
  refine ⟨_, step_of_event s he, rfl, fun z => ?regs, rfl, rfl, rfl, fun k => ?stack, rfl, rfl, rfl, pixel_blank,
    fun a ha => ?bytes, hfont, rfl, rfl, rfl, rfl, rfl, rfl, rfl, rfl⟩
  case regs => exact Vector.getElem_replicate z.isLt
  case stack => exact Vector.getElem_replicate k.isLt
  case bytes => exact if_neg (by simp only [Config.fontBase, Config.fontSize]; omega)

/-- Settles O60: the linear index of a cell gives its column and row back, and the codes are those of the phase and
the cause. -/
theorem hostReadsScreenSoundAndStatus : Obligations.HostReadsScreenSoundAndStatus := by
  intro s
  refine ⟨fun px py => ?display, ?sound, ?phase, ?cause⟩
  case display =>
    have hx : Fin.ofNat 64 ((64 * py.val + px.val) % 64) = px := Fin.ext (by rw [Fin.val_ofNat]; omega)
    have hy : Fin.ofNat 32 ((64 * py.val + px.val) / 64) = py := Fin.ext (by rw [Fin.val_ofNat]; omega)
    rw [State.displayByte, if_pos (by omega), hx, hy]
  case sound => simp [State.soundActive, ← BitVec.toNat_inj]
  case phase => cases hp : s.phase <;> simp [State.statusBlock, hp, Phase.code]
  case cause => cases hc : s.cause <;> simp [State.statusBlock, hc, Cause.code]

end Sys2Proof.Machine
end

section
/-! PROOFS. The family of spec/20_memory.md: the engine cycle, from the word in memory to `exec` of its instruction,
and the bound on data accesses. The layers below are the bytes of a word, the decoder on the words of `encode`, the
two ways an accepted `Step` can go, and the word that `State.withFetchWord` places. -/

namespace Sys2Proof

/-! ## The bytes of a word, and the decoder on an encoded instruction (R65, R95) -/

theorem hiByte_toNat (w : Word) : w.hiByte.toNat = w.toNat / 256 := by
  have := w.isLt
  simp only [Word.hiByte, BitVec.extractLsb_toNat, Nat.shiftRight_eq_div_pow]
  omega

theorem loByte_toNat (w : Word) : w.loByte.toNat = w.toNat % 256 := by
  simp only [Word.loByte, BitVec.extractLsb_toNat, Nat.shiftRight_eq_div_pow, pow_zero, Nat.div_one]

/-- A word of the table, as the host numbers it, is the word itself. -/
@[simp] theorem tableWord_toNat (w : Word) : tableWord 16 w.toNat = w := by
  rw [tableWord, Nat.mod_eq_of_lt w.isLt, BitVec.ofNat_toNat, BitVec.setWidth_eq]

/-- The decoder reads back every encoded instruction: the family selects the branch, in the families 0x5, 0x8, 0x9, 0xE
and 0xF the sub-opcode selects the instruction, and the operands are the fields as packed. -/
theorem decode_encode (i : Instr) : decode (encode i) = .instr i := by
  cases i with
  | cls | ret => rfl
  | jp | call | ldI | jpV0 => simp [encode, decode]
  | seImm | sneImm | ldImm | addImm | rnd => simp [encode, decode]
  | seReg | sneReg | drw => simp [encode, decode]
  | ldReg | orReg | andReg | xorReg | addReg | subReg | shrReg | subnReg | shlReg =>
    simp [encode, decode, decodeAlu]
  | skp | sknp => simp [encode, decode, decodeKeypad]
  | ldVxDt | ldVxK | ldDtVx | ldStVx | addI | ldF | ldB | storeRegs | loadRegs =>
    simp [encode, decode, decodeMisc]

namespace Machine

/-! ## An accepted `Step` (R68, R70) -/

/-- Settles O9: the fetch puts the byte at `PC` above the byte after it. -/
theorem fetchIsBigEndian : Obligations.FetchIsBigEndian :=
  fun s => wordOfBytes_toNat (s.mem.read s.pc.toNat) (s.mem.read (s.pc.toNat + 1))

section Step

variable {s : State} {keys : BitVec 16} {rnd : Byte} {rest : List Event}
  (he : s.io.events = .step keys rnd :: rest) (hr : s.phase = .run)
include he hr

/-- In `RUN` a `Step` is one engine cycle on the sampled inputs, with the event taken off the script. -/
theorem step_eq_runCycle : step s = ((s.withEvents rest).sample keys rnd).runCycle :=
  (step_of_event s he).trans (cycle_of_run (s.withEvents rest) keys rnd hr)

/-- Where both bytes at `PC` exist, a `Step` executes what they decode to, at the advanced `PC`. -/
theorem step_eq_execDecoded (hf : s.pc.toNat ≤ 0xFFE) :
    step s = execDecoded (decode s.fetchWord) ((s.withEvents rest).sample keys rnd).advance :=
  (step_eq_runCycle he hr).trans (runCycle_of_fetchable _ hf)

/-- Where they do not, a `Step` is the fatal condition of fetch. -/
theorem step_eq_outOfBoundsFetch (hf : 0xFFE < s.pc.toNat) :
    step s = .next (((s.withEvents rest).sample keys rnd).raiseFatal .outOfBoundsFetch (some s.pc) none) :=
  (step_eq_runCycle he hr).trans (runCycle_of_outside _ hf)

end Step

/-- Settles O6: the two bytes at `PC` are the fetched word, and what it decodes to is executed. -/
theorem stepRunsDecodedInstruction : Obligations.StepRunsDecodedInstruction := by
  intro s i keys rnd rest he hr hf hd
  rw [step_eq_execDecoded he hr hf, show decode s.fetchWord = .instr i from hd]
  rfl

/-- Settles O11: the fatal condition of fetch, after a change of the interface alone. -/
theorem stepOutOfBoundsFetch : Obligations.StepOutOfBoundsFetch := by
  intro s keys rnd rest he hr hf
  have frame := ((onlyChanges_withEvents s rest).append (onlyChanges_sample _ keys rnd)).append
    (onlyChanges_raiseFatal _ .outOfBoundsFetch (some s.pc) none)
  exact ⟨_, step_eq_outOfBoundsFetch he hr hf, rfl, rfl, rfl, rfl, rfl, frame.mono (by decide)⟩

/-! ## The word that `State.placeWord` stores (R65, R67; notes/assumptions 4) -/

section PlaceWord

variable (s : State) (w : Word)

theorem placeWord_pc : (s.placeWord w).pc = if s.pc.toNat ≤ 0xFFE then s.pc else 0x200 := by
  simp [State.placeWord, State.fetchable, Config.progBase]

/-- Both bytes of the placed word exist (R68). -/
theorem placeWord_pc_le : (s.placeWord w).pc.toNat ≤ 0xFFE := by
  rw [placeWord_pc]
  split
  · assumption
  · decide

theorem placeWord_mem :
    (s.placeWord w).mem = s.mem.writeBlock (s.placeWord w).pc.toNat [w.hiByte, w.loByte] := rfl

theorem read_placeWord_hi : (s.placeWord w).mem.read (s.placeWord w).pc.toNat = w.hiByte := by
  have hpc := placeWord_pc_le s w
  rw [placeWord_mem]
  exact Memory.read_writeBlock_inside _ _ _ 0 (by simp) (by simp only [Config.memSize]; omega)

theorem read_placeWord_lo : (s.placeWord w).mem.read ((s.placeWord w).pc.toNat + 1) = w.loByte := by
  have hpc := placeWord_pc_le s w
  rw [placeWord_mem]
  exact Memory.read_writeBlock_inside _ _ _ 1 (by simp) (by simp only [Config.memSize]; omega)

theorem bytesKept_placeWord : BytesKept (s.placeWord w).pc.toNat 2 s (s.placeWord w) :=
  Memory.read_writeBlock_outside [w.hiByte, w.loByte] s.mem _

theorem fetchWord_placeWord : (s.placeWord w).fetchWord = w := by
  rw [State.fetchWord, Memory.fetch, read_placeWord_hi, read_placeWord_lo, wordOfBytes_hiByte_loByte]

end PlaceWord

/-- Settles O7: the placed word is what the next step fetches, and it decodes to the instruction it encodes. -/
theorem placedInstructionRuns : Obligations.PlacedInstructionRuns := by
  intro i s
  refine ⟨s.placeWord (encode i), ?placed, placeWord_pc s _, rfl, ?hi, ?lo, bytesKept_placeWord s _, ?step⟩
  case placed => rw [State.withFetchWord, tableWord_toNat]
  case hi => rw [read_placeWord_hi, hiByte_toNat]
  case lo => rw [read_placeWord_lo, loByte_toNat]
  case step =>
    rw [step_eq_execDecoded rfl rfl (placeWord_pc_le s _), fetchWord_placeWord, decode_encode]
    rfl

/-! ## Data accesses outside memory (R72, R210) -/

/-- A data access whose highest address, the unreduced sum, exceeds `0xFFF` is the fatal condition and nothing else,
whatever the access would have done. -/
theorem withData_halts {s : State} {len : Nat} (i : Instr) (t : State) (hlen : 0 < len)
    (hout : 0xFFF < s.i.toNat + len - 1) :
    HaltedBy .memoryOutOfBounds (encode i) s (s.withData i len t) := by
  have hb : s.inBounds len = false := by
    rw [← Bool.not_eq_true, inBounds_iff]
    omega
  rw [withData_of_outside s i len t hb]
  exact haltedBy_raiseInExec s .memoryOutOfBounds i

/-- Settles O34: each of the four instructions is one data access at `I`. -/
theorem dataAccessOutOfBoundsIsFatal : Obligations.DataAccessOutOfBoundsIsFatal := by
  intro s
  refine ⟨fun x y n hn hout => ?drw, fun x hout => ?ldB, fun x hout => ?storeRegs, fun x hout => ?loadRegs⟩
  case drw => exact ⟨_, rfl, withData_halts (.drw x y n) _ hn hout⟩
  case ldB => exact ⟨_, rfl, withData_halts (.ldB x) _ (by decide) hout⟩
  case storeRegs => exact ⟨_, rfl, withData_halts (.storeRegs x) _ x.val.succ_pos hout⟩
  case loadRegs => exact ⟨_, rfl, withData_halts (.loadRegs x) _ x.val.succ_pos hout⟩

end Machine

end Sys2Proof
end

section
/-! PROOFS. The family of spec/30_encoding.md: `decode` and `encode` are inverse to each other, and the opcode map covers
exactly the words that decode to an instruction. The layers below are the word of a decoding result, branch by branch of
the decoder, the fields of a word that a row's mask fixes, and the rows of the map as the rows of the instructions. -/

namespace Sys2Proof

/-! ## The word of a decoding result (R95, R220) -/

theorem packNNN_of_op {h : BitVec 4} {w : Word} (ho : w.op = h) : packNNN h w.nnn = w := by
  rw [← ho]; exact packNNN_fields w

theorem decodeSystem_word (w : Word) : (decodeSystem w).word = w := by
  unfold decodeSystem
  split
  · next hw => exact hw.symm
  · split
    · next hw => exact hw.symm
    · rfl

theorem decodeAlu_word {w : Word} (ho : w.op = 0x8) : (decodeAlu w).word = w := by
  unfold decodeAlu
  split
  case h_10 => rfl
  all_goals next hn => exact packXYN_of_op ho (BitVec.eq_of_toNat_eq hn)

theorem decodeKeypad_word {w : Word} (ho : w.op = 0xE) : (decodeKeypad w).word = w := by
  unfold decodeKeypad
  split
  case h_3 => rfl
  all_goals next hnn => exact packXNN_of_op ho (BitVec.eq_of_toNat_eq hnn)

theorem decodeMisc_word {w : Word} (ho : w.op = 0xF) : (decodeMisc w).word = w := by
  unfold decodeMisc
  split
  case h_10 => rfl
  all_goals next hnn => exact packXNN_of_op ho (BitVec.eq_of_toNat_eq hnn)

/-- Every decoding result stands for the decoded word. The branch `h_k` of the decoder is the family of number `k - 1`;
the branches are grouped by the format of R92 that rebuilds the word from its family and its operands. -/
theorem decode_word (w : Word) : (decode w).word = w := by
  unfold decode
  split
  case h_1 => exact decodeSystem_word w
  case h_2 | h_3 | h_11 | h_12 => next hop => exact packNNN_of_op (BitVec.eq_of_toNat_eq hop)
  case h_4 | h_5 | h_7 | h_8 | h_13 => next hop => exact packXNN_of_op (BitVec.eq_of_toNat_eq hop) rfl
  case h_14 => next hop => exact packXYN_of_op (BitVec.eq_of_toNat_eq hop) rfl
  case h_6 | h_10 =>
    next hop =>
    split
    · next hn => exact packXYN_of_op (BitVec.eq_of_toNat_eq hop) hn
    · rfl
  case h_9 => next hop => exact decodeAlu_word (BitVec.eq_of_toNat_eq hop)
  case h_15 => next hop => exact decodeKeypad_word (BitVec.eq_of_toNat_eq hop)
  case h_16 =>
    have hlt : w.op.toNat < 16 := w.op.isLt
    have hop : w.op.toNat = 0xF := by grind
    exact decodeMisc_word (BitVec.eq_of_toNat_eq hop)

theorem encode_of_decode {w : Word} {i : Instr} (hd : decode w = .instr i) : encode i = w :=
  (congrArg Decoded.word hd).symm.trans (decode_word w)

theorem eq_of_decode_unknown {w v : Word} (hd : decode w = .unknown v) : v = w :=
  (congrArg Decoded.word hd).symm.trans (decode_word w)

/-- UNKNOWN, which keeps the word, is the answer exactly where no instruction is. -/
theorem decode_unknown_iff (w : Word) : decode w = .unknown w ↔ ¬ ∃ i, decode w = .instr i := by
  cases hd : decode w with
  | instr i => simp
  | unknown v =>
    obtain rfl := eq_of_decode_unknown hd
    simp

/-! ## The fields that a mask keeps (R95) -/

theorem op_and (w m : Word) : (w &&& m).op = w.op &&& m.op := BitVec.extractLsb_and

theorem n_and (w m : Word) : (w &&& m).n = w.n &&& m.n := BitVec.extractLsb_and

theorem nn_and (w m : Word) : (w &&& m).nn = w.nn &&& m.nn := BitVec.extractLsb_and

section Masked

variable {w m p : Word} (hw : w &&& m = p)
include hw

theorem op_toNat_of_masked (hm : m.op = BitVec.allOnes 4) : w.op.toNat = p.toNat / 4096 := by
  rw [← op_toNat, ← hw, op_and, hm, BitVec.and_allOnes]

theorem n_toNat_of_masked (hm : m.n = BitVec.allOnes 4) : w.n.toNat = p.toNat % 16 := by
  rw [← n_toNat, ← hw, n_and, hm, BitVec.and_allOnes]

theorem nn_toNat_of_masked (hm : m.nn = BitVec.allOnes 8) : w.nn.toNat = p.toNat % 256 := by
  rw [← nn_toNat, ← hw, nn_and, hm, BitVec.and_allOnes]

end Masked

/-! ## The rows of the opcode map (R96) -/

/-- One instruction of each row of the opcode map, in the order of the map. -/
def rowInstrs : List Instr :=
  [.cls, .ret, .jp 0, .call 0, .seImm 0 0, .sneImm 0 0, .seReg 0 0, .ldImm 0 0, .addImm 0 0,
   .ldReg 0 0, .orReg 0 0, .andReg 0 0, .xorReg 0 0, .addReg 0 0, .subReg 0 0, .shrReg 0 0, .subnReg 0 0, .shlReg 0 0,
   .sneReg 0 0, .ldI 0, .jpV0 0, .rnd 0 0, .drw 0 0 0, .skp 0, .sknp 0, .ldVxDt 0, .ldVxK 0, .ldDtVx 0, .ldStVx 0,
   .addI 0, .ldF 0, .ldB 0, .storeRegs 0, .loadRegs 0]

theorem map_rowOf_rowInstrs : rowInstrs.map rowOf = opcodeRows := rfl

/-- The rows of the map are the rows of the instructions. -/
theorem mem_opcodeRows_iff {r : OpcodeRow} : r ∈ opcodeRows ↔ ∃ i, rowOf i = r := by
  constructor
  · rw [← map_rowOf_rowInstrs, List.mem_map]
    exact fun ⟨i, _, hi⟩ => ⟨i, hi⟩
  · rintro ⟨i, rfl⟩
    have hc : opcodeRows.contains (rowOf i) = true := by cases i <;> rfl
    exact List.contains_iff_mem.1 hc

/-- The word of an instruction lies in the instruction's row, by the mask of the instruction's format. -/
theorem encode_and_mask (i : Instr) : encode i &&& (rowOf i).mask = (rowOf i).pattern := by
  cases i with
  | cls | ret => rfl
  | jp | call | ldI | jpV0 => exact packNNN_mask ..
  | seImm | sneImm | ldImm | addImm | rnd => exact packXNN_mask ..
  | drw => exact packXYN_mask ..
  | seReg | sneReg | ldReg | orReg | andReg | xorReg | addReg | subReg | shrReg | subnReg | shlReg =>
    exact packXY_mask ..
  | skp | sknp | ldVxDt | ldVxK | ldDtVx | ldStVx | addI | ldF | ldB | storeRegs | loadRegs => exact packX_mask ..

/-- A word in the row of an instruction decodes to an instruction: the bits that the row's mask keeps are those the
decoder examines. -/
theorem decode_isInstr_of_and_mask {w : Word} (i : Instr) (hw : w &&& (rowOf i).mask = (rowOf i).pattern) :
    ∃ j, decode w = .instr j := by
  cases i with
  | cls | ret =>
    obtain rfl : w = _ := BitVec.and_allOnes.symm.trans hw
    exact ⟨_, rfl⟩
  | jp | call | ldI | jpV0 | seImm | sneImm | ldImm | addImm | rnd | drw =>
    replace hw : w &&& 0xF000 = _ := hw
    have hop := op_toNat_of_masked hw (by decide)
    simp [decode, hop, rowOf]
  | seReg | sneReg | ldReg | orReg | andReg | xorReg | addReg | subReg | shrReg | subnReg | shlReg =>
    replace hw : w &&& 0xF00F = _ := hw
    have hop := op_toNat_of_masked hw (by decide)
    have hn := n_toNat_of_masked hw (by decide)
    simp [decode, decodeAlu, hop, hn, rowOf, ← BitVec.toNat_inj]
  | skp | sknp | ldVxDt | ldVxK | ldDtVx | ldStVx | addI | ldF | ldB | storeRegs | loadRegs =>
    replace hw : w &&& 0xF0FF = _ := hw
    have hop := op_toNat_of_masked hw (by decide)
    have hnn := nn_toNat_of_masked hw (by decide)
    simp [decode, decodeKeypad, decodeMisc, hop, hnn, rowOf]

/-- A word decodes to an instruction exactly when a row of the map covers it. -/
theorem decode_isInstr_iff (w : Word) :
    (∃ i, decode w = .instr i) ↔ ∃ r ∈ opcodeRows, w &&& r.mask = r.pattern := by
  constructor
  · rintro ⟨i, hd⟩
    obtain rfl := encode_of_decode hd
    exact ⟨rowOf i, mem_opcodeRows_iff.2 ⟨i, rfl⟩, encode_and_mask i⟩
  · rintro ⟨r, hr, hw⟩
    obtain ⟨i, rfl⟩ := mem_opcodeRows_iff.1 hr
    exact decode_isInstr_of_and_mask i hw

/-! ## The statements -/

/-- Settles O1: the family, then the sub-opcode, select the instruction's branch of the decoder. -/
theorem decodeOfEncode : Obligations.DecodeOfEncode := decode_encode

/-- Settles O2: each branch of the decoder answers what the format of its family rebuilds the word from. -/
theorem encodeOfDecode : Obligations.EncodeOfDecode := decode_word

/-- Settles O3: a word that a row covers is a word of the row's instruction, and the rows are those of the
instructions. -/
theorem unknownIffNoRowMatches : Obligations.UnknownIffNoRowMatches := by
  intro w
  refine ⟨?_, decode_isInstr_iff w⟩
  rw [decode_unknown_iff, decode_isInstr_iff]
  push Not
  rfl

/-- Settles O5: eleven evaluations of the decoder. -/
theorem decodeExamples : Obligations.DecodeExamples := by
  unfold Obligations.DecodeExamples
  decide

end Sys2Proof
end

section
/-! PROOFS. The family of spec/40_flow.md: jumps, calls and returns. The stack decides between the two ways a call and
a return can go; `exec_call_of_room` and `exec_ret_of_live` say the first way of each, the lemmas here the second. -/

namespace Sys2Proof.Machine

/-! ## The two jumps (R121, R123) -/

/-- Settles O14: the address is zero-extended, and the jump writes nothing else. -/
theorem jumpSetsPc : Obligations.JumpSetsPc :=
  fun nnn s => ⟨decode_encode (.jp nnn), _, rfl, zext16_toNat (by decide) nnn, onlyChanges_jump s _⟩

/-- An address plus an offset register does not wrap: `0xFFF + 0xFF` fits a word. -/
theorem zext16_add_zext16_toNat (nnn : BitVec 12) (b : Byte) :
    (zext16 nnn + zext16 b).toNat = nnn.toNat + b.toNat := by
  have hn := nnn.isLt
  have hb := b.isLt
  rw [BitVec.toNat_add, zext16_toNat (by decide), zext16_toNat (by decide)]
  exact Nat.mod_eq_of_lt (by omega)

/-- Settles O17: the 16-bit sum is the sum of the numbers. -/
theorem jumpWithOffsetSetsPc : Obligations.JumpWithOffsetSetsPc :=
  fun nnn s =>
    ⟨decode_encode (.jpV0 nnn), _, rfl, zext16_add_zext16_toNat nnn (s.getV 0), onlyChanges_jump s _⟩

/-! ## Call and return (R120, R122, R232, R233) -/

theorem exec_call_of_full (s : State) (nnn : BitVec 12) (h : s.sp = 16) : exec (.call nnn) s =
    .next (s.raiseInExec .stackOverflow (.call nnn)) := by
  simp only [exec, execCall, push_of_full s s.pc h]

theorem exec_ret_of_empty (s : State) (h : s.sp = 0) : exec .ret s =
    .next (s.raiseDiagnostic .stackUnderflow s.pc0 (encode .ret)) := by
  simp only [exec, execRet, pop_of_empty s h]

/-- Settles O15: with a free entry the call is a push and then a jump, on a full stack the fatal condition alone. -/
theorem callPushesOrOverflows : Obligations.CallPushesOrOverflows := by
  refine fun nnn s => ⟨decode_encode (.call nnn), fun hroom => ?room, fun hfull => ?full⟩
  case room =>
    have frame := (onlyChanges_push (push_of_room s s.pc hroom)).append (onlyChanges_jump _ (zext16 nnn))
    refine ⟨_, exec_call_of_room s nnn hroom, ?top, fun k hk => ?others, rfl, zext16_toNat (by decide) nnn,
      frame.mono (by decide)⟩
    case top => exact Vector.getElem_set_self hroom
    case others => exact Vector.getElem_set_ne hroom k.isLt hk.symm
  case full => exact ⟨_, exec_call_of_full s nnn (Fin.ext hfull), haltedBy_raiseInExec s .stackOverflow (.call nnn)⟩

/-- Settles O16: with a live entry the return is a pop and then a jump, on an empty stack the diagnostic alone. -/
theorem returnPopsOrUnderflows : Obligations.ReturnPopsOrUnderflows := by
  refine ⟨decode_encode .ret, fun s => ⟨fun hlive => ?live, fun hempty => ?empty⟩⟩
  case live =>
    have frame := (onlyChanges_pop (pop_of_live s hlive.ne')).append (onlyChanges_jump _ s.stack[s.sp.val - 1])
    exact ⟨_, exec_ret_of_live s hlive.ne', rfl, rfl, frame.mono (by decide)⟩
  case empty =>
    exact ⟨_, exec_ret_of_empty s (Fin.ext hempty), rfl, rfl, rfl, rfl, rfl, onlyChanges_raiseDiagnostic s _ _ _⟩

/-! ## The jump to itself (R121, R288) -/

/-- A jump back to the instruction's own address undoes the advance of fetch. -/
theorem jump_advance_self (s : State) : s.advance.jump s.pc = s := rfl

/-- Settles O59: the jump leads back to its own address, so the step samples the inputs and does nothing more. -/
theorem selfJumpIsTheEnd : Obligations.SelfJumpIsTheEnd := by
  rintro s keys rnd rest he ⟨hr, hf, nnn, hd, hself⟩
  have hstep : step s = .next ((s.withEvents rest).sample keys rnd) := by
    rw [step_eq_execDecoded he hr (of_decide_eq_true hf), hd]
    exact congrArg Host.Outcome.next (hself ▸ jump_advance_self ((s.withEvents rest).sample keys rnd))
  have frame := (onlyChanges_withEvents s rest).append (onlyChanges_sample _ keys rnd)
  exact ⟨_, hstep, ⟨hr, hf, nnn, hd, hself⟩, frame.mono (by decide)⟩

end Sys2Proof.Machine
end

section
/-! PROOFS. The family of spec/41_skip.md: the four comparisons. Each is `State.skipIf` of one equality test, so the two
rules on the `PC` that such a test leaves serve all four. -/

namespace Sys2Proof.Machine

/-! ## The `PC` after a skip (R130 to R133) -/

@[simp] theorem skipIf_pc (s : State) (c : Bool) : (s.skipIf c).pc = if c then s.pc + 2 else s.pc := by
  cases c <;> rfl

theorem skipIf_beq_pc (s : State) (a b : Byte) : (s.skipIf (a == b)).pc = if a = b then s.pc + 2 else s.pc := by
  simp only [skipIf_pc, beq_iff_eq]

theorem skipIf_bne_pc (s : State) (a b : Byte) : (s.skipIf (a != b)).pc = if a = b then s.pc else s.pc + 2 := by
  simp only [skipIf_pc, bne_iff_ne, ne_eq, ite_not]

/-! ## The words of format XYN in the two register families (R95, R98) -/

/-- The family selects the branch, and the branch reads back the fields that were packed. -/
theorem decode_packXYN_seReg (x y : Reg) (n : BitVec 4) :
    decode (packXYN 0x5 x y n) = if n = 0 then .instr (.seReg x y) else .unknown (packXYN 0x5 x y n) := by
  simp only [decode, op_packXYN, x_packXYN, y_packXYN, n_packXYN, BitVec.reduceToNat]

/-- As in family `0x5`. -/
theorem decode_packXYN_sneReg (x y : Reg) (n : BitVec 4) :
    decode (packXYN 0x9 x y n) = if n = 0 then .instr (.sneReg x y) else .unknown (packXYN 0x9 x y n) := by
  simp only [decode, op_packXYN, x_packXYN, y_packXYN, n_packXYN, BitVec.reduceToNat]

/-! ## The statements -/

/-- Settles O19: the skip is on equality with the immediate. -/
theorem skipIfEqualImmediate : Obligations.SkipIfEqualImmediate :=
  fun x nn s =>
    ⟨decode_encode (.seImm x nn), _, rfl, skipIf_beq_pc s (s.getV x) nn, onlyChanges_skipIf s _⟩

/-- Settles O20: the skip is on difference from the immediate. -/
theorem skipIfDiffersImmediate : Obligations.SkipIfDiffersImmediate :=
  fun x nn s =>
    ⟨decode_encode (.sneImm x nn), _, rfl, skipIf_bne_pc s (s.getV x) nn, onlyChanges_skipIf s _⟩

/-- Settles O21: in both families the low nibble decides between the skip and UNKNOWN, and the skip is on one equality
test of the two registers. -/
theorem skipOnRegisters : Obligations.SkipOnRegisters := by
  refine fun x y n s => ⟨decode_packXYN_seReg x y n, decode_packXYN_sneReg x y n, ?se, ?sne⟩
  case se => exact ⟨_, rfl, skipIf_beq_pc s (s.getV x) (s.getV y), onlyChanges_skipIf s _⟩
  case sne => exact ⟨_, rfl, skipIf_bne_pc s (s.getV x) (s.getV y), onlyChanges_skipIf s _⟩

end Sys2Proof.Machine
end

section
/-! PROOFS. The family of spec/42_immediate.md: an immediate loaded into a register, added to one, or loaded into `I`.
The register forms are one `State.setV`, the index form is one `State.setI`; neither writes a flag. -/

namespace Sys2Proof.Machine

/-- Settles O22: the write to `V[x]` is the whole effect, and no register is exempt from it. -/
theorem loadImmediate : Obligations.LoadImmediate :=
  fun x nn s =>
    ⟨decode_encode (.ldImm x nn), _, rfl, getV_setV_self s x nn, regsKept_setV s x nn, onlyChanges_setV s x nn⟩

/-- The byte that an addition leaves in its destination is the sum with 8-bit wraparound (R141). -/
theorem getV_setV_add_toNat (s : State) (x : Reg) (a b : Byte) :
    ((s.setV x (a + b)).getV x).toNat = (a.toNat + b.toNat) % 256 := by
  rw [getV_setV_self, BitVec.toNat_add]

/-- Settles O23: the wrapped sum goes to `V[x]` by a plain register write, so VF is kept as any other register is. -/
theorem addImmediateWraps : Obligations.AddImmediateWraps :=
  fun x nn s =>
    ⟨decode_encode (.addImm x nn), _, rfl, getV_setV_add_toNat s x (s.getV x) nn, regsKept_setV s x _,
      onlyChanges_setV s x _⟩

/-- Settles O24: the address is zero-extended, and the load writes nothing else. -/
theorem loadIndexImmediate : Obligations.LoadIndexImmediate :=
  fun nnn s => ⟨decode_encode (.ldI nnn), _, rfl, zext16_toNat (by decide) nnn, onlyChanges_setI s _⟩

end Sys2Proof.Machine
end

section
/-! PROOFS. The family of spec/43_alu.md: the register-to-register operations. The copy and the three bitwise operations
are one `State.setV`; the five arithmetic ones are one `State.setResultFlag`, whose effect is said once, so that each of
them owes only the arithmetic of its result and of its flag. -/

namespace Sys2Proof.Machine

/-! ## The flags as numbers (R155 to R159) -/

theorem flag_carryOut_toNat (a b : Byte) :
    (flag (carryOut a b)).toNat = if a.toNat + b.toNat > 255 then 1 else 0 := by
  simp only [flag_toNat, carryOut, decide_eq_true_eq]

theorem flag_noBorrow_toNat (a b : Byte) : (flag (noBorrow a b)).toNat = if a.toNat ≥ b.toNat then 1 else 0 := by
  simp only [flag_toNat, noBorrow, decide_eq_true_eq, ge_iff_le]

theorem flag_bitOutRight_toNat (b : Byte) : (flag (bitOutRight b)).toNat = b.toNat % 2 := by
  have hlsb : bitOutRight b = decide (b.toNat % 2 = 1) := Nat.testBit_zero b.toNat
  simp only [flag_toNat, hlsb, decide_eq_true_eq]
  split <;> omega

/-- Bit 7 is the most significant one, set from 128 on. -/
theorem flag_bitOutLeft_toNat (b : Byte) : (flag (bitOutLeft b)).toNat = b.toNat / 128 := by
  have hmsb : bitOutLeft b = decide (128 ≤ b.toNat) :=
    (BitVec.msb_eq_getLsbD_last b).symm.trans (BitVec.msb_eq_decide b)
  simp only [flag_toNat, hmsb, decide_eq_true_eq]
  split <;> omega

/-! ## The results as numbers (R156 to R159) -/

/-- The difference with 8-bit wraparound is the difference of the integers modulo 256 (R156, R158). -/
theorem sub_toNat_cast (a b : Byte) : ((a - b).toNat : Int) = ((a.toNat : Int) - b.toNat) % 256 := by
  rw [BitVec.toNat_sub]; omega

theorem ushiftRight_one_toNat (b : Byte) : (b >>> 1).toNat = b.toNat / 2 := by
  rw [BitVec.toNat_ushiftRight, Nat.shiftRight_one]

theorem shiftLeft_one_toNat (b : Byte) : (b <<< 1).toNat = 2 * b.toNat % 256 := by
  rw [BitVec.toNat_shiftLeft, Nat.shiftLeft_eq, pow_one, mul_comm]

/-! ## The effect of a flagged instruction (R161) -/

/-- A flagged write leaves whatever holds of the result in `V[x]`, unless that is VF, and the flag in VF, and nothing
else is touched. -/
theorem setResultFlag_effect (s : State) (x : Reg) {r : Byte} {f : Bool} {n : Nat} (P : Byte → Prop) (hr : P r)
    (hf : (flag f).toNat = n) :
    (x ≠ Reg.vf → P ((s.setResultFlag x r f).getV x)) ∧ ((s.setResultFlag x r f).getV Reg.vf).toNat = n ∧
      RegsKept [x, Reg.vf] s (s.setResultFlag x r f) ∧ OnlyChanges [.v] s (s.setResultFlag x r f) :=
  ⟨fun hx => by rwa [setResultFlag_result s r f hx], by rwa [setResultFlag_vf], regsKept_setResultFlag s x r f,
    onlyChanges_setResultFlag s x r f⟩

/-! ## The statements -/

/-- Settles O27: the wrapped sum and the carry, by the effect of a flagged write. -/
theorem addSetsCarry : Obligations.AddSetsCarry :=
  fun x y s =>
    ⟨decode_encode (.addReg x y), _, rfl,
      setResultFlag_effect s x (fun b => b.toNat = _) (BitVec.toNat_add _ _) (flag_carryOut_toNat _ _)⟩

/-- Settles O28: the two subtractions are one arithmetic with the operands exchanged. -/
theorem subtractSetsNotBorrow : Obligations.SubtractSetsNotBorrow := by
  refine fun x y s => ⟨decode_encode (.subReg x y), decode_encode (.subnReg x y), ⟨_, rfl, ?_⟩, ⟨_, rfl, ?_⟩⟩
  all_goals
    exact setResultFlag_effect s x (fun b => (b.toNat : Int) = _) (sub_toNat_cast _ _) (flag_noBorrow_toNat _ _)

/-- Settles O29: both shifts read `V[y]`, the halving moves out bit 0 and the doubling bit 7. -/
theorem shiftsMoveOneBit : Obligations.ShiftsMoveOneBit := by
  refine fun x y s => ⟨decode_encode (.shrReg x y), decode_encode (.shlReg x y), ⟨_, rfl, ?shr⟩, ⟨_, rfl, ?shl⟩⟩
  case shr =>
    exact setResultFlag_effect s x (fun b => b.toNat = _) (ushiftRight_one_toNat _) (flag_bitOutRight_toNat _)
  case shl =>
    exact setResultFlag_effect s x (fun b => b.toNat = _) (shiftLeft_one_toNat _) (flag_bitOutLeft_toNat _)

/-- Settles O25: the copy is one register write, and no register is exempt from it. -/
theorem copyRegister : Obligations.CopyRegister :=
  fun x y s =>
    ⟨decode_encode (.ldReg x y), _, rfl, getV_setV_self s x _, regsKept_setV s x _, onlyChanges_setV s x _⟩

/-- Settles O26: each operation is one register write of a byte combined bit by bit, so VF is kept as any other register
is. -/
theorem bitwiseOperations : Obligations.BitwiseOperations := by
  refine fun x y s => ⟨decode_encode (.orReg x y), decode_encode (.andReg x y), decode_encode (.xorReg x y),
    ⟨_, rfl, fun k => ?or, regsKept_setV s x _, onlyChanges_setV s x _⟩,
    ⟨_, rfl, fun k => ?and, regsKept_setV s x _, onlyChanges_setV s x _⟩,
    ⟨_, rfl, fun k => ?xor, regsKept_setV s x _, onlyChanges_setV s x _⟩⟩
  case or => rw [getV_setV_self, BitVec.getLsbD_or]
  case and => rw [getV_setV_self, BitVec.getLsbD_and]
  case xor => rw [getV_setV_self, BitVec.getLsbD_xor]

end Sys2Proof.Machine
end

section
/-! PROOFS. The family of spec/44_random.md: the random byte under a mask. It is one `State.setV` of a byte that the
host supplies with the `Step`, of which nothing is assumed. -/

namespace Sys2Proof.Machine

/-- The byte that a mask leaves in its destination is the masked one bit by bit: 0 where the mask is 0 (R170). -/
theorem getV_setV_and_getLsbD (s : State) (x : Reg) (a b : Byte) (k : Nat) :
    ((s.setV x (a &&& b)).getV x).getLsbD k = (a.getLsbD k && b.getLsbD k) := by
  rw [getV_setV_self, BitVec.getLsbD_and]

/-- Settles O30: the random byte is masked and goes to `V[x]` by a plain register write, whatever the byte is. -/
theorem randomUnderMask : Obligations.RandomUnderMask :=
  fun x nn s =>
    ⟨decode_encode (.rnd x nn), _, rfl, getV_setV_and_getLsbD s x s.io.rnd nn, regsKept_setV s x _,
      onlyChanges_setV s x _⟩

end Sys2Proof.Machine
end

section
/-! PROOFS. The family of spec/45_display.md: `00E0` and `DXYN`. A `DXYN` whose sprite is in memory answers
`State.withSprite`. Its screen and its VF are said once through `SpriteCovers`, and drawing twice is the same said of
the state after the first draw, where the sprite covers the same cells. -/

namespace Sys2Proof.Machine

/-- Settles O31: the instruction puts the blank screen in place of the screen. -/
theorem clearScreen : Obligations.ClearScreen :=
  ⟨decode_encode .cls, fun s => ⟨_, rfl, pixel_blank, onlyChanges_fb s _⟩⟩

/-! ## The state after a sprite (R176) -/

/-- The state after the sprite of `n` rows at `I` is drawn at `(V[x], V[y])`: a new screen, then VF the collision. -/
def State.withSprite (s : State) (x y : Reg) (n : Nat) : State :=
  { s with fb := (s.drawing x y n).1 }.setV Reg.vf (flag (s.drawing x y n).2)

theorem exec_drw_of_inMemory (s : State) (x y : Reg) (n : BitVec 4)
    (h : n.toNat = 0 ∨ s.i.toNat + n.toNat - 1 ≤ 0xFFF) : exec (.drw x y n) s = .next (s.withSprite x y n.toNat) :=
  congrArg _ (withData_of_inBounds s (.drw x y n) n.toNat _ ((inBounds_iff s n.toNat).2 h))

/-- A sprite has at most 15 rows, so it visits no cell twice (R177 (e)). -/
theorem spriteCells_nodup_of_height (s : State) (x y : Reg) (n : BitVec 4) : (s.spriteCells x y n.toNat).Nodup :=
  spriteCells_nodup s x y (by omega)

section WithSprite

variable (s : State) (x y : Reg) (n : BitVec 4)

@[simp] theorem withSprite_i (k : Nat) : (s.withSprite x y k).i = s.i := rfl

@[simp] theorem withSprite_mem (k : Nat) : (s.withSprite x y k).mem = s.mem := rfl

theorem getV_withSprite_vf (k : Nat) : (s.withSprite x y k).getV Reg.vf = flag (s.drawing x y k).2 :=
  getV_setV_self _ _ _

theorem regsKept_withSprite (k : Nat) : RegsKept [Reg.vf] s (s.withSprite x y k) :=
  regsKept_setV { s with fb := (s.drawing x y k).1 } Reg.vf _

theorem onlyChanges_withSprite (k : Nat) : OnlyChanges [.v, .fb] s (s.withSprite x y k) :=
  ((onlyChanges_fb s _).append (onlyChanges_setV _ Reg.vf _)).mono (by simp)

variable {s x y n} {px : Fin 64} {py : Fin 32}

theorem pixel_withSprite_of_covers (h : SpriteCovers s x y n.toNat px py) :
    (s.withSprite x y n.toNat).fb.pixel px py = !s.fb.pixel px py := by
  show (s.drawing x y n.toNat).1.pixel px py = _
  rw [drawing_eq, pixel_toggleAll (spriteCells_nodup_of_height s x y n), if_pos ((mem_spriteCells ..).2 h)]

theorem pixel_withSprite_of_not_covers (h : ¬SpriteCovers s x y n.toNat px py) :
    (s.withSprite x y n.toNat).fb.pixel px py = s.fb.pixel px py := by
  show (s.drawing x y n.toNat).1.pixel px py = _
  rw [drawing_eq, pixel_toggleAll (spriteCells_nodup_of_height s x y n), if_neg ((mem_spriteCells ..).not.2 h)]

/-- A collision is a covered cell that was on before the instruction (R177 (e)). -/
theorem drawing_collides_iff : (s.drawing x y n.toNat).2 = true ↔
    ∃ px py, SpriteCovers s x y n.toNat px py ∧ s.fb.pixel px py = true := by
  rw [drawing_eq, collision_toggleAll (spriteCells_nodup_of_height s x y n)]
  simp [mem_spriteCells]

theorem getV_withSprite_vf_of_collision (h : ∃ px py, SpriteCovers s x y n.toNat px py ∧ s.fb.pixel px py = true) :
    (s.withSprite x y n.toNat).getV Reg.vf = 1 := by
  rw [getV_withSprite_vf, drawing_collides_iff.2 h]; rfl

theorem getV_withSprite_vf_of_no_collision
    (h : ¬∃ px py, SpriteCovers s x y n.toNat px py ∧ s.fb.pixel px py = true) :
    (s.withSprite x y n.toNat).getV Reg.vf = 0 := by
  rw [getV_withSprite_vf, Bool.eq_false_iff.2 (drawing_collides_iff.not.2 h)]; rfl

/-- A draw changes neither the sprite bytes nor, when they are not in VF, the coordinates. -/
theorem spriteCovers_withSprite_iff (hx : x ≠ Reg.vf) (hy : y ≠ Reg.vf) (k : Nat) :
    SpriteCovers (s.withSprite x y k) x y k px py ↔ SpriteCovers s x y k px py := by
  unfold SpriteCovers
  rw [regsKept_withSprite s x y k x (by simpa using hx), regsKept_withSprite s x y k y (by simpa using hy),
    withSprite_i, withSprite_mem]

end WithSprite

/-! ## The statements -/

/-- Settles O32: the sprite's cells are distinct, so each is toggled once and judged as it was before the draw. -/
theorem drawTogglesCoveredPixels : Obligations.DrawTogglesCoveredPixels :=
  fun x y n s =>
    ⟨decode_encode (.drw x y n), fun h =>
      ⟨_, exec_drw_of_inMemory s x y n h, fun _ _ => pixel_withSprite_of_covers,
        fun _ _ => pixel_withSprite_of_not_covers, getV_withSprite_vf_of_collision,
        getV_withSprite_vf_of_no_collision, regsKept_withSprite s x y _, onlyChanges_withSprite s x y _⟩⟩

/-- Settles O33: the second draw covers the same cells, so it inverts back what the first one inverted; a cell that the
first one found off is on for the second. -/
theorem drawTwiceRestoresScreen : Obligations.DrawTwiceRestoresScreen := by
  intro x y n s hx hy h
  have same (px py) : SpriteCovers (s.withSprite x y n.toNat) x y n.toNat px py ↔ SpriteCovers s x y n.toNat px py :=
    spriteCovers_withSprite_iff hx hy n.toNat
  refine ⟨_, _, exec_drw_of_inMemory s x y n h, exec_drw_of_inMemory _ x y n h, fun px py => ?screen, ?vf⟩
  case screen =>
    by_cases hc : SpriteCovers s x y n.toNat px py
    · rw [pixel_withSprite_of_covers ((same px py).2 hc), pixel_withSprite_of_covers hc, Bool.not_not]
    · rw [pixel_withSprite_of_not_covers ((same px py).not.2 hc), pixel_withSprite_of_not_covers hc]
  case vf =>
    rintro hvf ⟨px, py, hc⟩
    have off : s.fb.pixel px py = false := by
      by_contra on
      have one := getV_withSprite_vf_of_collision ⟨px, py, hc, Bool.eq_true_of_not_eq_false on⟩
      exact absurd (one.symm.trans hvf) (by decide)
    exact getV_withSprite_vf_of_collision
      ⟨px, py, (same px py).2 hc, by rw [pixel_withSprite_of_covers hc, off, Bool.not_false]⟩

end Sys2Proof.Machine
end

section
/-! PROOFS. The family of spec/46_keypad.md: the two skips on a key and the wait for a key. The skips are
`State.skipIf` of the key that a register numbers. The wait is decided by `State.lowestKey`, which is said here from the
keys: the smallest one that is down, or none. -/

namespace Sys2Proof.Machine

/-! ## The key that a register numbers, and the smallest key that is down (R187, R188) -/

theorem keyDown_lowNibble (s : State) (b : Byte) :
    s.keyDown (lowNibble b) = s.io.keys.getLsbD (b.toNat % 16) := by
  rw [State.keyDown, lowNibble_val]

/-- The search answers the key that is down below which none is: it answers some key, and neither a smaller nor a
larger one would do. -/
theorem lowestKey_eq_some {s : State} {k : Reg} (hk : s.keyDown k = true) (hbelow : ∀ j, j < k → s.keyDown j = false) :
    s.lowestKey = some k := by
  cases h : s.lowestKey with
  | none => exact absurd hk (Bool.eq_false_iff.1 (lowestKey_none s h k))
  | some m =>
    obtain ⟨hm, hfirst⟩ := lowestKey_some s h
    obtain hlt | rfl | hgt := lt_trichotomy m k
    · exact absurd hm (Bool.eq_false_iff.1 (hbelow m hlt))
    · rfl
    · exact absurd hk (Bool.eq_false_iff.1 (hfirst k hgt))

theorem lowestKey_eq_none {s : State} (hkeys : s.io.keys = 0) : s.lowestKey = none := by
  have up (k : Reg) : s.keyDown k = false := by rw [State.keyDown, hkeys]; exact BitVec.getLsbD_zero
  exact Option.eq_none_iff_forall_ne_some.2 fun k h => Bool.eq_false_iff.1 (up k) (lowestKey_some s h).1

/-! ## The two ways a skip and a wait can go (R186, R187) -/

theorem skipIf_not_pc (s : State) (c : Bool) : (s.skipIf (!c)).pc = if c then s.pc else s.pc + 2 := by
  cases c <;> rfl


theorem exec_ldVxK_of_key {s : State} {k : Reg} (x : Reg) (h : s.lowestKey = some k) :
    exec (.ldVxK x) s = .next (s.setV x (BitVec.ofNat 8 k.val)) := by
  show execLdVxK x s = _
  rw [execLdVxK, h]

theorem exec_ldVxK_of_no_key {s : State} (x : Reg) (h : s.lowestKey = none) :
    exec (.ldVxK x) s = .next (s.jump (s.pc - 2)) := by
  show execLdVxK x s = _
  rw [execLdVxK, h]; rfl

/-- A key number fits in a register. -/
theorem getV_setV_key_toNat (s : State) (x k : Reg) : ((s.setV x (BitVec.ofNat 8 k.val)).getV x).toNat = k.val := by
  rw [getV_setV_self, BitVec.toNat_ofNat, Nat.mod_eq_of_lt (by omega)]

/-! ## The statements -/

/-- Settles O36: the keys decide what the search for the smallest one answers, and its answer decides between the write
to `V[x]` and the step back. -/
theorem waitForKey : Obligations.WaitForKey := by
  refine fun x s => ⟨decode_encode (.ldVxK x), fun k hk hbelow => ?key, fun hkeys => ?wait⟩
  case key =>
    exact ⟨_, exec_ldVxK_of_key x (lowestKey_eq_some hk hbelow), getV_setV_key_toNat s x k, regsKept_setV s x _,
      onlyChanges_setV s x _⟩
  case wait => exact ⟨_, exec_ldVxK_of_no_key x (lowestKey_eq_none hkeys), rfl, onlyChanges_jump s _⟩

/-- Settles O35: both skips test the key numbered by the low nibble of `V[x]`, the second one for its being up. -/
theorem skipOnKey : Obligations.SkipOnKey := by
  refine fun x s => ⟨decode_encode (.skp x), decode_encode (.sknp x),
    ⟨_, rfl, ?skp, onlyChanges_skipIf s _⟩, ⟨_, rfl, ?sknp, onlyChanges_skipIf s _⟩⟩
  case skp => rw [skipIf_pc, keyDown_lowNibble]
  case sknp => rw [skipIf_not_pc, keyDown_lowNibble]

end Sys2Proof.Machine
end

section
/-! PROOFS. The family of spec/47_timer_io.md: the delay timer read into a register, and the two timers set from one.
The read is one `State.setV`. A set is the write of one timer, which leaves the other and the fraction as they were, and
then `State.settleFrac`, which judges the timers as that write left them. -/

namespace Sys2Proof.Machine

/-- Settles O37: the read is one register write of the timer's value. -/
theorem readDelayTimer : Obligations.ReadDelayTimer :=
  fun x s =>
    ⟨decode_encode (.ldVxDt x), _, rfl, getV_setV_self s x s.dt, regsKept_setV s x s.dt, onlyChanges_setV s x s.dt⟩

/-- Settles O38: settling the fraction keeps the timer just written and clears the fraction by a test of both timers
after the write. -/
theorem setTimers : Obligations.SetTimers := by
  refine fun x s => ⟨decode_encode (.ldDtVx x), decode_encode (.ldStVx x), ⟨_, rfl, ?delay⟩, ⟨_, rfl, ?sound⟩⟩
  case delay =>
    exact ⟨State.settleFrac_dt _, State.settleFrac_frac _,
      (onlyChanges_setDt s (s.getV x)).append (onlyChanges_settleFrac _)⟩
  case sound =>
    exact ⟨State.settleFrac_st _, State.settleFrac_frac _,
      (onlyChanges_setSt s (s.getV x)).append (onlyChanges_settleFrac _)⟩

end Sys2Proof.Machine
end

section
/-! PROOFS. The family of spec/48_index_memory.md: arithmetic on `I`, and the three transfers between registers and
memory at `I`. A transfer inside memory is `State.withData` of its access; what the access stores or loads is said once
by the rules on blocks, and a fetch from the stored block is two of its bytes. -/

namespace Sys2Proof.Machine

/-! ## Arithmetic on `I` (R205, R206) -/

/-- Settles O42: the zero-extended register is added to `I` with 16-bit wraparound. -/
theorem addToIndexWraps : Obligations.AddToIndexWraps := by
  refine fun x s => ⟨decode_encode (.addI x), _, rfl, ?sum, onlyChanges_setI s _⟩
  case sum => rw [State.setI_i, BitVec.toNat_add, zext16_toNat (by decide)]

/-- Settles O43: the glyph is the one that the low nibble numbers. -/
theorem indexToGlyph : Obligations.IndexToGlyph := by
  refine fun x s => ⟨decode_encode (.ldF x), _, rfl, ?glyph, onlyChanges_setI s _⟩
  case glyph => rw [State.setI_i, glyphAddress_toNat, lowNibble_val]

/-! ## A transfer inside memory (R72, R207 to R209) -/

/-- A data access whose highest address exists completes. -/
theorem withData_of_inMemory {s : State} {len : Nat} (i : Instr) (t : State) (h : s.i.toNat + len - 1 ≤ 0xFFF) :
    s.withData i len t = t :=
  withData_of_inBounds s i len t ((inBounds_iff s len).2 (.inr h))

theorem exec_ldB_of_inMemory {s : State} (x : Reg) (h : s.i.toNat + 2 ≤ 0xFFF) :
    exec (.ldB x) s = .next { s with mem := s.mem.writeBlock s.i.toNat (bcd (s.getV x)) } :=
  congrArg _ (withData_of_inMemory _ _ h)

theorem exec_storeRegs_of_inMemory {s : State} {x : Reg} (h : s.i.toNat + x.val ≤ 0xFFF) :
    exec (.storeRegs x) s = .next ({ s with mem := s.mem.writeBlock s.i.toNat (s.firstRegs x) }.stepI x) :=
  congrArg _ (withData_of_inMemory _ _ h)

theorem exec_loadRegs_of_inMemory {s : State} {x : Reg} (h : s.i.toNat + x.val ≤ 0xFFF) :
    exec (.loadRegs x) s = .next ((s.loadFrom (Reg.upTo x)).stepI x) :=
  congrArg _ (withData_of_inMemory _ _ h)

theorem stepI_i_toNat (s : State) (x : Reg) : (s.stepI x).i.toNat = (s.i.toNat + x.val + 1) % 65536 := by
  rw [State.stepI, State.setI_i, BitVec.toNat_add, BitVec.toNat_ofNat, Nat.add_mod_mod, Nat.add_assoc]

/-! ## The digits of a byte (R207) -/

/-- Each digit fits in the byte that holds it. -/
theorem bcd_toNat (b : Byte) :
    (bcd b).map BitVec.toNat = [b.toNat / 100, b.toNat / 10 % 10, b.toNat % 10] := by
  have hb := b.isLt
  simp only [bcd, List.map_cons, List.map_nil, BitVec.toNat_ofNat, List.cons.injEq, and_true]
  omega

/-- After the digits are stored, each of the three bytes is the digit of its place. -/
theorem read_writeBlock_bcd_toNat {a k : Nat} (m : Memory) (b : Byte) (h : a + 2 ≤ 0xFFF) (hk : k < 3) :
    ((m.writeBlock a (bcd b)).read (a + k)).toNat = [b.toNat / 100, b.toNat / 10 % 10, b.toNat % 10][k] := by
  have hdigit : (m.writeBlock a (bcd b)).read (a + k) = (bcd b)[k]'hk :=
    Memory.read_writeBlock_inside (bcd b) m a k hk (by simp only [Config.memSize]; omega)
  rw [hdigit]
  simp only [← bcd_toNat]
  exact (List.getElem_map BitVec.toNat).symm

/-- Settles O44: the three digits are stored as a block at `I`. -/
theorem storeDecimalDigits : Obligations.StoreDecimalDigits :=
  fun x s =>
    ⟨decode_encode (.ldB x), fun h =>
      ⟨_, exec_ldB_of_inMemory x h, read_writeBlock_bcd_toNat (k := 0) s.mem _ h (by decide),
        read_writeBlock_bcd_toNat s.mem _ h (by decide), read_writeBlock_bcd_toNat s.mem _ h (by decide),
        Memory.read_writeBlock_outside (bcd (s.getV x)) s.mem _, onlyChanges_mem s _⟩⟩

/-! ## The register block (R208, R209) -/

/-- After the block is stored, each of its bytes is the register of its number. -/
theorem read_writeBlock_firstRegs {s : State} {x k : Reg} (hk : k ≤ x) (h : s.i.toNat + x.val ≤ 0xFFF) :
    (s.mem.writeBlock s.i.toNat (s.firstRegs x)).read (s.i.toNat + k.val) = s.getV k := by
  have hkx : k.val ≤ x.val := hk
  have hlen : k.val < (s.firstRegs x).length := by rw [length_firstRegs]; omega
  rw [Memory.read_writeBlock_inside _ _ _ k.val hlen (by simp only [Config.memSize]; omega), getElem_firstRegs s x k hk]

/-- Settles O45: the registers are stored as a block at `I`, and then `I` is moved. -/
theorem storeRegisterBlock : Obligations.StoreRegisterBlock := by
  refine fun x s => ⟨decode_encode (.storeRegs x), fun h =>
    ⟨_, exec_storeRegs_of_inMemory h, fun k hk => read_writeBlock_firstRegs hk h, ?kept, stepI_i_toNat _ x,
      (onlyChanges_mem s _).append (onlyChanges_stepI _ x)⟩⟩
  case kept =>
    rw [← length_firstRegs s x]
    exact Memory.read_writeBlock_outside (s.firstRegs x) s.mem s.i.toNat

/-- Settles O46: the registers are loaded from the block at `I`, and then `I` is moved. -/
theorem loadRegisterBlock : Obligations.LoadRegisterBlock := by
  refine fun x s => ⟨decode_encode (.loadRegs x), fun h =>
    ⟨_, exec_loadRegs_of_inMemory h, fun k hk => ?loaded, fun k hk => ?kept, ?index,
      (onlyChanges_loadFrom s _).append (onlyChanges_stepI _ x)⟩⟩
  case loaded => rw [getV_stepI, getV_loadFrom, if_pos ((Reg.mem_upTo x k).2 hk)]
  case kept => rw [getV_stepI, getV_loadFrom, if_neg ((Reg.mem_upTo x k).not.2 (not_le.2 hk))]
  case index => rw [stepI_i_toNat, loadFrom_eq]

/-- Settles O47: the first two bytes of the block are the bytes at the address of the fetch. -/
theorem storedWordIsFetched : Obligations.StoredWordIsFetched := by
  intro x s hx h
  refine ⟨_, exec_storeRegs_of_inMemory h, congrArg₂ wordOfBytes ?hi ?lo⟩
  case hi => exact read_writeBlock_firstRegs (Fin.zero_le x) h
  case lo => exact read_writeBlock_firstRegs (k := 1) hx h

end Sys2Proof.Machine
end

section
/-! PROOFS. The families of spec/49_unimplemented.md and spec/70_reset_and_hazards.md: a `Step` on a word that is no
instruction, and a `Load` in `IDLE`. -/

namespace Sys2Proof.Machine

/-- Settles O10: the UNKNOWN word is executed as its diagnostic, after the advance of `PC` and a change of the interface
alone. -/
theorem stepOnUnknownWord : Obligations.StepOnUnknownWord := by
  intro s w keys rnd rest he hr hf hd
  have hstep : step s = .next (((s.withEvents rest).sample keys rnd).advance.raiseDiagnostic .unimplementedOpcode
      s.pc w) := by
    rw [step_eq_execDecoded he hr hf, show decode s.fetchWord = .unknown w from hd]
    exact congrArg (fun pc => Host.Outcome.next (State.raiseDiagnostic _ _ pc w)) (pc0_advance _)
  have frame := (((onlyChanges_withEvents s rest).append (onlyChanges_sample _ keys rnd)).append
    (onlyChanges_advance _)).append (onlyChanges_raiseDiagnostic _ .unimplementedOpcode s.pc w)
  have hpc : s.advance.pc.toNat = s.pc.toNat + 2 := advance_pc_toNat (by omega)
  exact ⟨_, hstep, hpc, rfl, rfl, rfl, rfl, rfl, hr, rfl, frame.mono (by decide)⟩

/-! ## A `Load` in `IDLE` (R275 to R277) -/

/-- The state after a `Load` that fits: the program in memory and the CORE running. -/
def State.withProgram (s : State) (bytes : List Byte) : State :=
  { s with
    mem := s.mem.writeBlock Config.progBase bytes
    phase := .run
    io := { s.io with result := some .ok } }

theorem load_of_fits {s : State} {bytes : List Byte} (hi : s.phase = .idle) (hl : bytes.length ≤ Config.progMax) :
    s.load bytes = s.withProgram bytes := by
  rw [State.load, hi]
  exact if_pos hl

theorem load_of_too_long {s : State} {bytes : List Byte} (hi : s.phase = .idle) (hl : Config.progMax < bytes.length) :
    s.load bytes = s.raiseFatal .programLoadOverflow none none := by
  rw [State.load, hi]
  exact if_neg (Nat.not_le_of_lt hl)

/-- A program that fits ends inside memory, so each of its bytes stands at its address. -/
theorem read_withProgram (s : State) {bytes : List Byte} (hl : bytes.length ≤ Config.progMax) {k : Nat}
    (hk : k < bytes.length) : (s.withProgram bytes).mem.read (Config.progBase + k) = bytes[k] := by
  have hin : Config.progBase + Config.progMax = Config.memSize := rfl
  exact Memory.read_writeBlock_inside bytes s.mem Config.progBase k hk (by omega)

theorem bytesKept_withProgram (s : State) (bytes : List Byte) :
    BytesKept Config.progBase bytes.length s (s.withProgram bytes) :=
  Memory.read_writeBlock_outside bytes s.mem Config.progBase

theorem onlyChanges_withProgram (s : State) (bytes : List Byte) :
    OnlyChanges [.mem, .fault, .result] s (s.withProgram bytes) := by
  intro f hf; cases f <;> simp [Unchanged, State.withProgram] at hf ⊢; exact fun z => rfl

/-- Settles O50: the length decides between the program in memory and the fatal condition. -/
theorem loadInIdle : Obligations.LoadInIdle := by
  intro s bytes rest he hi
  have hstep : step s = .next ((s.withEvents rest).load bytes) := step_of_event s he
  refine ⟨fun hl => ?fits, fun hl => ?tooLong⟩
  case fits =>
    rw [load_of_fits (s := s.withEvents rest) hi hl] at hstep
    have frame := (onlyChanges_withEvents s rest).append (onlyChanges_withProgram _ bytes)
    exact ⟨_, hstep, rfl, rfl, fun _ hk => read_withProgram (s.withEvents rest) hl hk, bytesKept_withProgram s bytes,
      rfl, rfl, rfl, rfl, frame.mono (by decide)⟩
  case tooLong =>
    rw [load_of_too_long (s := s.withEvents rest) hi hl] at hstep
    have frame := (onlyChanges_withEvents s rest).append (onlyChanges_raiseFatal _ .programLoadOverflow none none)
    exact ⟨_, hstep, rfl, rfl, rfl, rfl, rfl, rfl, frame.mono (by decide)⟩

end Sys2Proof.Machine
end

section
/-! PROOFS. The statements that stand apart from the instructions: the rows of the opcode map, the timer unit over two
updates, memory as the bytes it holds, and the host past the end of its script. -/

namespace Sys2Proof

/-! ## Two rows and one word (R99) -/

/-- Where two rows cover a word, the bits that both masks keep are the same in both patterns. -/
theorem pattern_and_mask_of_masked {w m p n q : Word} (hp : w &&& m = p) (hq : w &&& n = q) : p &&& n = q &&& m := by
  rw [← hp, ← hq, BitVec.and_assoc, BitVec.and_assoc, BitVec.and_comm m n]

/-- Any two rows of the map differ in a bit that both masks keep. -/
theorem opcodeRows_separated :
    ∀ r ∈ opcodeRows, ∀ q ∈ opcodeRows, r.pattern &&& q.mask = q.pattern &&& r.mask → r = q := by
  decide

/-- Settles O4: a word that two rows cover would agree with both in the bits that separate them. -/
theorem opcodeRowsDisjoint : Obligations.OpcodeRowsDisjoint :=
  fun _ r hr q hq hwr hwq => opcodeRows_separated r hr q hq (pattern_and_mask_of_masked hwr hwq)

namespace Machine

/-! ## The timers over several updates (R250 to R252) -/

/-- With both timers at zero an update only clears the fraction. -/
theorem timerUpdate_of_idle {s : State} (hdt : s.dt = 0) (hst : s.st = 0) (e : Elapsed) :
    s.timerUpdate e = { s with frac := 0 } := by
  have zero (k : Nat) : decay 0 k = 0 := (decay_eq_zero 0 k).2 k.zero_le
  simp only [State.timerUpdate, State.settleFrac, hdt, hst, zero, and_self, if_true]

/-- An update does not depend on the fraction having been settled before it: where settling clears the fraction, the
update clears it again. -/
theorem timerUpdate_settleFrac (s : State) (e : Elapsed) : s.settleFrac.timerUpdate e = s.timerUpdate e := by
  unfold State.settleFrac
  split
  · next h =>
    obtain ⟨hdt, hst⟩ := h
    rw [timerUpdate_of_idle (s := s) hdt hst]
    exact timerUpdate_of_idle (s := { s with frac := 0 }) hdt hst e
  · rfl

/-- Settles O40: the fraction that the first update carries is owed at the second, and the counts of both add up. -/
theorem timerUpdatesCompose : Obligations.TimerUpdatesCompose := by
  intro s d e sum hfrac hsum
  obtain ⟨k, f, hk, hf0, hf1⟩ : ∃ (k : Nat) (f : Rat), s.owed d = k + f ∧ 0 ≤ f ∧ f < 1 :=
    exists_counts (by rw [owed_eq]; linarith [seconds_nonneg d])
  obtain ⟨j, g, hj, hg0, hg1⟩ : ∃ (j : Nat) (g : Rat),
      ({ s with dt := decay s.dt k, st := decay s.st k, frac := f } : State).owed e = j + g ∧ 0 ≤ g ∧ g < 1 :=
    exists_counts (by rw [owed_eq]; linarith [seconds_nonneg e])
  have hboth : s.owed sum = (k + j : Nat) + g := by
    rw [owed_eq] at hk hj ⊢
    push_cast
    linarith
  rw [timerUpdate_of_counts s hk hf0 hf1, timerUpdate_settleFrac, timerUpdate_of_counts _ hj hg0 hg1,
    timerUpdate_of_counts s hboth hg0 hg1]
  simp only [decay_decay]

/-- Settles O41: the amount owed is one count and no fraction. -/
theorem sixtiethOfASecondIsOneCount : Obligations.SixtiethOfASecondIsOneCount := by
  intro s hfrac
  have howed : s.owed ⟨1, 59⟩ = (1 : Nat) + 0 := by
    rw [owed_eq, hfrac, Elapsed.seconds]
    norm_num
  refine ⟨timerUpdate_dt_of_counts howed le_rfl one_pos, timerUpdate_st_of_counts howed le_rfl one_pos, ?frac⟩
  case frac => rw [timerUpdate_frac_of_counts howed le_rfl one_pos, ite_self]

/-! ## Memory as its bytes (notes/assumptions 5) -/

theorem Memory.read_of_mem {m : Memory} (hm : m.Pairwise fun c d => c.1 < d.1) {c : Host.Cell} (hc : c ∈ m) :
    m.read c.1 = c.2 := by
  induction m with
  | nil => cases hc
  | cons d rest ih =>
    obtain ⟨hd, hrest⟩ := List.pairwise_cons.1 hm
    obtain rfl | hc := List.mem_cons.1 hc
    · exact if_pos rfl
    · exact (if_neg (hd c hc).ne).trans (ih hrest hc)

theorem Memory.mem_of_read_ne {m : Memory} {a : Nat} (h : m.read a ≠ resetByte a) : (a, m.read a) ∈ m := by
  induction m with
  | nil => exact absurd rfl h
  | cons d rest ih =>
    obtain ⟨b, u⟩ := d
    by_cases hb : b = a
    · subst hb
      simp [Memory.read]
    · rw [Memory.read, if_neg hb] at h ⊢
      exact List.mem_cons_of_mem _ (ih h)

/-- A canonical memory lists exactly the bytes that differ from what memory holds after `Reset`. -/
theorem Memory.mem_iff_read {m : Memory} (hm : m.wf) (c : Host.Cell) :
    c ∈ m ↔ m.read c.1 = c.2 ∧ c.2 ≠ resetByte c.1 := by
  constructor
  · exact fun hc => ⟨Memory.read_of_mem hm.1 hc, (hm.2 c hc).2⟩
  · rintro ⟨hread, hne⟩
    have hc := Memory.mem_of_read_ne (hread.trans_ne hne)
    rwa [hread] at hc

/-- Settles O48: both lists hold the same cells, each once, in the order of their addresses. -/
theorem canonicalMemoryIsItsBytes : Obligations.CanonicalMemoryIsItsBytes := by
  intro m n hm hn hread
  have hcells (c : Host.Cell) : c ∈ m ↔ c ∈ n := by
    rw [Memory.mem_iff_read hm, Memory.mem_iff_read hn, hread]
  have nodup {l : Memory} (hl : l.wf) : l.Nodup := hl.1.imp fun hlt he => hlt.ne (congrArg Prod.fst he)
  have hperm : m.Perm n := (List.perm_ext_iff_of_nodup (nodup hm) (nodup hn)).2 hcells
  exact hperm.eq_of_pairwise (fun c d _ _ hcd hdc => absurd hcd hdc.asymm) hm.1 hn.1

/-! ## Past the end of the script (notes/assumptions 2) -/

/-- In `RUN` a cycle executes the instruction that the bytes at `PC` decode to, on the sampled inputs. -/
theorem cycle_eq_exec {s : State} {i : Instr} (hr : s.phase = .run) (hf : s.pc.toNat ≤ 0xFFE)
    (hd : decode s.fetchWord = .instr i) (keys : BitVec 16) (rnd : Byte) :
    s.cycle keys rnd = exec i (s.sample keys rnd).advance := by
  rw [cycle_of_run s keys rnd hr, runCycle_of_fetchable (s.sample keys rnd) hf]
  exact congrArg (execDecoded · _) hd

@[simp] theorem timerUpdate_fetchWord (s : State) (e : Elapsed) : (s.timerUpdate e).fetchWord = s.fetchWord := by
  simp only [State.fetchWord, State.timerUpdate_mem, State.timerUpdate_pc]

/-- The time that elapses before the free `Step` reaches the timers alone, beside the count of the draw. -/
theorem step_eq_cycle_of_empty {s : State} (he : s.io.events = []) : step s =
    ({ s.timerUpdate (Config.freeElapsed s.io.drawn) with io := { s.io with drawn := s.io.drawn + 1 } } : State).cycle
      (Config.freeKeys s.io.drawn) (Config.freeRnd s.io.drawn) := by
  rw [step_of_empty s he, State.freeHost, timerUpdate_io]

/-- Settles O8: the update leaves the phase, `PC` and memory, so the cycle after it fetches the word of before. -/
theorem stepOfFreeHost : Obligations.StepOfFreeHost := by
  intro s i he hr hf hd
  refine ⟨_, rfl, onlyChanges_timerUpdate s _, ?_⟩
  rw [step_eq_cycle_of_empty he, cycle_eq_exec (i := i) ?run ?pc ?word]
  · simp only [State.sample, State.advance, State.timerUpdate_pc, he]
  case run => exact (State.timerUpdate_phase s _).trans hr
  case pc => exact (congrArg BitVec.toNat (State.timerUpdate_pc s _)).trans_le hf
  case word => exact (congrArg decode (timerUpdate_fetchWord s _)).trans hd

end Machine

end Sys2Proof
end
